-- ==== Sys2Proof/Word.lean ====
section
/-!
DEFINITION. The widths the spec fixes (00_scope.md R8, R81): bytes, 16-bit words, twelve-bit
addresses and register numbers, and the two widenings of 00_scope.md R11.
-/

namespace Sys2Proof

/-- An 8-bit value: a register, a timer, a memory cell, an immediate `kk` (R8). -/
abbrev Byte := BitVec 8

/-- A 16-bit value: `I`, `pc`, a stack slot, an opcode (R8). -/
abbrev Word := BitVec 16

/-- The embedded address `nnn` (30_encoding.md R81). -/
abbrev Addr12 := BitVec 12

/-- The number of a register V0 to VF, of a key or of a sprite's rows: 0 to 15 (R81, R82). -/
abbrev Index16 := Fin 16

/-- The register number of VF (10_state.md R21). -/
abbrev VF : Index16 := 15

/-- `zext_16` of a byte (R11). -/
abbrev zextByte (b : Byte) : Word := b.setWidth 16

/-- `zext_16` of an embedded address (R11, R82). -/
abbrev zextAddr (a : Addr12) : Word := a.setWidth 16

end Sys2Proof
end

