-- ==== Sys2Proof/Syntax.lean ====
section
/-!
DEFINITION. The instruction set as data: one constructor for each row of spec/opcode_table.json
(30_encoding.md R94 for the 34 operations, R90 for the four no-op rows).
-/

namespace Sys2Proof

/-- An instruction with its operands (30_encoding.md R81, R83). Bits that an operation ignores
(R92) are no operand of it. A no-op keeps the twelve bits below its top nibble, since R95 prints
them. -/
inductive Instr where
  /-- CLS (R130) -/
  | cls
  /-- RET (R141) -/
  | ret
  /-- JP addr (R142) -/
  | jp (nnn : Addr12)
  /-- CALL addr (R143) -/
  | call (nnn : Addr12)
  /-- SE Vx, kk (R144) -/
  | seByte (x : Index16) (kk : Byte)
  /-- SNE Vx, kk (R145) -/
  | sneByte (x : Index16) (kk : Byte)
  /-- SE Vx, Vy (R146) -/
  | seReg (x y : Index16)
  /-- LD Vx, kk (R161) -/
  | ldByte (x : Index16) (kk : Byte)
  /-- ADD Vx, kk (R162) -/
  | addByte (x : Index16) (kk : Byte)
  /-- LD Vx, Vy (R163) -/
  | ldReg (x y : Index16)
  /-- OR Vx, Vy (R164) -/
  | orReg (x y : Index16)
  /-- AND Vx, Vy (R165) -/
  | andReg (x y : Index16)
  /-- XOR Vx, Vy (R166) -/
  | xorReg (x y : Index16)
  /-- ADD Vx, Vy (R167) -/
  | addReg (x y : Index16)
  /-- SUB Vx, Vy (R168) -/
  | subReg (x y : Index16)
  /-- SHR Vx, Vy (R169) -/
  | shr (x y : Index16)
  /-- SUBN Vx, Vy (R170) -/
  | subn (x y : Index16)
  /-- SHL Vx, Vy (R171) -/
  | shl (x y : Index16)
  /-- SNE Vx, Vy (R147) -/
  | sneReg (x y : Index16)
  /-- LD I, addr (R180) -/
  | ldI (nnn : Addr12)
  /-- JP Vx, addr (R148); x is written as an operand and equals the top nibble of nnn (R95) -/
  | jpReg (nnn : Addr12) (x : Index16)
  /-- RND Vx, kk (R172) -/
  | rnd (x : Index16) (kk : Byte)
  /-- DRW Vx, Vy, n (R132) -/
  | drw (x y n : Index16)
  /-- SKP Vx (R201) -/
  | skp (x : Index16)
  /-- SKNP Vx (R202) -/
  | sknp (x : Index16)
  /-- LD Vx, DT (R203) -/
  | ldVxDt (x : Index16)
  /-- LD Vx, K (R204) -/
  | ldVxK (x : Index16)
  /-- LD DT, Vx (R205) -/
  | ldDtVx (x : Index16)
  /-- LD ST, Vx (R206) -/
  | ldStVx (x : Index16)
  /-- ADD I, Vx (R181) -/
  | addI (x : Index16)
  /-- LD F, Vx (R182) -/
  | ldF (x : Index16)
  /-- LD B, Vx (R183) -/
  | ldB (x : Index16)
  /-- LD [I], Vx (R184) -/
  | dump (x : Index16)
  /-- LD Vx, [I] (R185) -/
  | load (x : Index16)
  /-- NOP, an undefined slot of family 0x0 (R90) -/
  | nop0 (low : Addr12)
  /-- NOP, an undefined slot of family 0x8 (R90) -/
  | nop8 (low : Addr12)
  /-- NOP, an undefined slot of family 0xE (R90) -/
  | nopE (low : Addr12)
  /-- NOP, an undefined slot of family 0xF (R90) -/
  | nopF (low : Addr12)
  deriving DecidableEq, Repr

end Sys2Proof
end

