-- ==== Sys2Proof/WellFormed.lean ====
section
/-!
DEFINITION. Which terms of `Instr` stand for an opcode. The types bound every operand; what is
left to check is that a no-op sits in an undefined slot (30_encoding.md R90) and that the two
spellings of `op[11:8]` in `Bnnn` agree (R95).
-/

namespace Sys2Proof

/-- The selector values with no operation in family 0x0 (R85, R90). -/
def undefinedSlot0 (sel : BitVec 4) : Bool := !(sel == 0x0#4 || sel == 0xE#4)

/-- The selector values with no operation in family 0x8 (R86, R90). -/
def undefinedSlot8 (sel : BitVec 4) : Bool := 0x8#4 ≤ sel && !(sel == 0xE#4)

/-- The selector values with no operation in family 0xE (R87, R90). -/
def undefinedSlotE (sel : BitVec 4) : Bool := !(sel == 0xE#4 || sel == 0x1#4)

/-- The selectors of family 0xF that name an operation (R88). -/
def definedSlotsF : List Byte :=
  [0x07, 0x0A, 0x15, 0x18, 0x1E, 0x29, 0x33, 0x55, 0x65]

/-- The selector values with no operation in family 0xF (R88, R90). -/
def undefinedSlotF (sel : Byte) : Bool := !(definedSlotsF.contains sel)

/-- An instruction stands for some opcode. -/
def Instr.wf : Instr → Bool
  | .cls => true
  | .ret => true
  | .jp _ => true
  | .call _ => true
  | .seByte _ _ => true
  | .sneByte _ _ => true
  | .seReg _ _ => true
  | .ldByte _ _ => true
  | .addByte _ _ => true
  | .ldReg _ _ => true
  | .orReg _ _ => true
  | .andReg _ _ => true
  | .xorReg _ _ => true
  | .addReg _ _ => true
  | .subReg _ _ => true
  | .shr _ _ => true
  | .subn _ _ => true
  | .shl _ _ => true
  | .sneReg _ _ => true
  | .ldI _ => true
  | .jpReg nnn x => (nnn.extractLsb' 8 4).toFin == x
  | .rnd _ _ => true
  | .drw _ _ _ => true
  | .skp _ => true
  | .sknp _ => true
  | .ldVxDt _ => true
  | .ldVxK _ => true
  | .ldDtVx _ => true
  | .ldStVx _ => true
  | .addI _ => true
  | .ldF _ => true
  | .ldB _ => true
  | .dump _ => true
  | .load _ => true
  | .nop0 low => undefinedSlot0 (low.extractLsb' 0 4)
  | .nop8 low => undefinedSlot8 (low.extractLsb' 0 4)
  | .nopE low => undefinedSlotE (low.extractLsb' 0 4)
  | .nopF low => undefinedSlotF (low.extractLsb' 0 8)

end Sys2Proof
end

