-- ==== Sys2Proof/Decode.lean ====
section
/-!
DEFINITION. The decoder of 30_encoding.md R84 to R97, the encoder to the canonical opcodes of
R94, and the mask and match of each table row.
-/

namespace Sys2Proof

/-! ## Fields of an opcode (R81) -/

/-- `op[15:12]`, the first-level selector (R84). -/
def topNibble (op : Word) : BitVec 4 := op.extractLsb' 12 4

/-- `x = op[11:8]`. -/
def xField (op : Word) : Index16 := (op.extractLsb' 8 4).toFin

/-- `y = op[7:4]`. -/
def yField (op : Word) : Index16 := (op.extractLsb' 4 4).toFin

/-- `n = op[3:0]` as a row count. -/
def nField (op : Word) : Index16 := (op.extractLsb' 0 4).toFin

/-- `op[3:0]` as the selector of families 0x0, 0x8 and 0xE. -/
def lowNibble (op : Word) : BitVec 4 := op.extractLsb' 0 4

/-- `kk = op[7:0]`, the immediate and the selector of family 0xF. -/
def kkField (op : Word) : Byte := op.extractLsb' 0 8

/-- `nnn = op[11:0]`. -/
def nnnField (op : Word) : Addr12 := op.extractLsb' 0 12

/-! ## Decoding (R97) -/

/-- Family 0x0 (R85). -/
def decodeFamily0 (op : Word) : Instr :=
  match lowNibble op with
  | 0x0#4 => .cls
  | 0xE#4 => .ret
  | _ => .nop0 (nnnField op)

/-- Family 0x8 (R86). -/
def decodeFamily8 (op : Word) : Instr :=
  match lowNibble op with
  | 0x0#4 => .ldReg (xField op) (yField op)
  | 0x1#4 => .orReg (xField op) (yField op)
  | 0x2#4 => .andReg (xField op) (yField op)
  | 0x3#4 => .xorReg (xField op) (yField op)
  | 0x4#4 => .addReg (xField op) (yField op)
  | 0x5#4 => .subReg (xField op) (yField op)
  | 0x6#4 => .shr (xField op) (yField op)
  | 0x7#4 => .subn (xField op) (yField op)
  | 0xE#4 => .shl (xField op) (yField op)
  | _ => .nop8 (nnnField op)

/-- Family 0xE (R87). -/
def decodeFamilyE (op : Word) : Instr :=
  match lowNibble op with
  | 0xE#4 => .skp (xField op)
  | 0x1#4 => .sknp (xField op)
  | _ => .nopE (nnnField op)

/-- Family 0xF (R88). -/
def decodeFamilyF (op : Word) : Instr :=
  match kkField op with
  | 0x07#8 => .ldVxDt (xField op)
  | 0x0A#8 => .ldVxK (xField op)
  | 0x15#8 => .ldDtVx (xField op)
  | 0x18#8 => .ldStVx (xField op)
  | 0x1E#8 => .addI (xField op)
  | 0x29#8 => .ldF (xField op)
  | 0x33#8 => .ldB (xField op)
  | 0x55#8 => .dump (xField op)
  | 0x65#8 => .load (xField op)
  | _ => .nopF (nnnField op)

/-- The decoder, total on all 65,536 opcodes (R97): the twelve operations of R89 and the four
families. The last arm is the top nibble 0xF. -/
def decode (op : Word) : Instr :=
  match topNibble op with
  | 0x0#4 => decodeFamily0 op
  | 0x1#4 => .jp (nnnField op)
  | 0x2#4 => .call (nnnField op)
  | 0x3#4 => .seByte (xField op) (kkField op)
  | 0x4#4 => .sneByte (xField op) (kkField op)
  | 0x5#4 => .seReg (xField op) (yField op)
  | 0x6#4 => .ldByte (xField op) (kkField op)
  | 0x7#4 => .addByte (xField op) (kkField op)
  | 0x8#4 => decodeFamily8 op
  | 0x9#4 => .sneReg (xField op) (yField op)
  | 0xA#4 => .ldI (nnnField op)
  | 0xB#4 => .jpReg (nnnField op) (xField op)
  | 0xC#4 => .rnd (xField op) (kkField op)
  | 0xD#4 => .drw (xField op) (yField op) (nField op)
  | 0xE#4 => decodeFamilyE op
  | _ => decodeFamilyF op

/-- Two bytes as an opcode, the first one the high byte (20_memory.md R56). -/
def combine (hi lo : Byte) : Word := hi ++ lo

/-- The bytes of an opcode in memory order (20_memory.md R56). -/
def opBytes (op : Word) : List Byte := [op.extractLsb' 8 8, op.extractLsb' 0 8]

/-- Why a byte string does not decode. No opcode is illegal (R91), so there is one reason. -/
inductive DecodeError where
  /-- fewer than the two bytes of an instruction (R80) -/
  | truncated
  deriving DecidableEq, Repr

/-- Decode the instruction at the head of a byte string, with what follows it. -/
def decodeBytes : List Byte → Except DecodeError (Instr × List Byte)
  | hi :: lo :: rest => .ok (decode (combine hi lo), rest)
  | [_] => .error .truncated
  | [] => .error .truncated

/-- The opcode whose bits are `w`, every bit from `nbits` up being 0. -/
def tableWord (nbits w : Nat) : Word := BitVec.ofNat 16 (w % 2 ^ nbits)

/-- The decoder on a word numbered as spec/opcode_table.json numbers it (one 16-bit word). -/
def decodeTableWord (nbits w : Nat) : Option Instr :=
  match decodeBytes (opBytes (tableWord nbits w)) with
  | .ok (i, _) => some i
  | .error _ => none

/-! ## Encoding (R83, R94) -/

/-- Format `A`: a selector and an embedded address. -/
def encodeA (top : BitVec 4) (nnn : Addr12) : Word := top ++ nnn

/-- A register number or a row count as four bits. -/
abbrev nibble (x : Index16) : BitVec 4 := BitVec.ofFin x

/-- Formats `XK` and `X`: a selector, a register and a byte. -/
def encodeXK (top : BitVec 4) (x : Index16) (kk : Byte) : Word := top ++ nibble x ++ kk

/-- Formats `XY` and `XYN`: a selector, two registers and the low nibble. -/
def encodeXY (top : BitVec 4) (x y : Index16) (low : BitVec 4) : Word :=
  top ++ nibble x ++ nibble y ++ low

/-- The canonical opcode of an instruction (R94): ignored bits are 0, except the `E` of `00E0` and
`00EE`, the `9` of `Ex9E` and the `A` of `ExA1`. A no-op's opcode is its own bits. -/
def encode : Instr → Word
  | .cls => 0x00E0#16
  | .ret => 0x00EE#16
  | .jp nnn => encodeA 0x1#4 nnn
  | .call nnn => encodeA 0x2#4 nnn
  | .seByte x kk => encodeXK 0x3#4 x kk
  | .sneByte x kk => encodeXK 0x4#4 x kk
  | .seReg x y => encodeXY 0x5#4 x y 0x0#4
  | .ldByte x kk => encodeXK 0x6#4 x kk
  | .addByte x kk => encodeXK 0x7#4 x kk
  | .ldReg x y => encodeXY 0x8#4 x y 0x0#4
  | .orReg x y => encodeXY 0x8#4 x y 0x1#4
  | .andReg x y => encodeXY 0x8#4 x y 0x2#4
  | .xorReg x y => encodeXY 0x8#4 x y 0x3#4
  | .addReg x y => encodeXY 0x8#4 x y 0x4#4
  | .subReg x y => encodeXY 0x8#4 x y 0x5#4
  | .shr x y => encodeXY 0x8#4 x y 0x6#4
  | .subn x y => encodeXY 0x8#4 x y 0x7#4
  | .shl x y => encodeXY 0x8#4 x y 0xE#4
  | .sneReg x y => encodeXY 0x9#4 x y 0x0#4
  | .ldI nnn => encodeA 0xA#4 nnn
  | .jpReg nnn _ => encodeA 0xB#4 nnn
  | .rnd x kk => encodeXK 0xC#4 x kk
  | .drw x y n => encodeXY 0xD#4 x y (nibble n)
  | .skp x => encodeXK 0xE#4 x 0x9E#8
  | .sknp x => encodeXK 0xE#4 x 0xA1#8
  | .ldVxDt x => encodeXK 0xF#4 x 0x07#8
  | .ldVxK x => encodeXK 0xF#4 x 0x0A#8
  | .ldDtVx x => encodeXK 0xF#4 x 0x15#8
  | .ldStVx x => encodeXK 0xF#4 x 0x18#8
  | .addI x => encodeXK 0xF#4 x 0x1E#8
  | .ldF x => encodeXK 0xF#4 x 0x29#8
  | .ldB x => encodeXK 0xF#4 x 0x33#8
  | .dump x => encodeXK 0xF#4 x 0x55#8
  | .load x => encodeXK 0xF#4 x 0x65#8
  | .nop0 low => encodeA 0x0#4 low
  | .nop8 low => encodeA 0x8#4 low
  | .nopE low => encodeA 0xE#4 low
  | .nopF low => encodeA 0xF#4 low

/-- The two bytes of an instruction in memory order. -/
def encodeBytes (i : Instr) : List Byte := opBytes (encode i)

/-! ## The opcode table's rows (R94, R90) -/

/-- A row's decode mask and match value. -/
structure Row where
  mask : Word
  pattern : Word
  deriving DecidableEq, Repr

/-- An opcode selects a row (R94). -/
def Row.selects (r : Row) (op : Word) : Bool := op &&& r.mask == r.pattern

/-- The mask and match of an instruction's row in R94. A no-op's row fixes its top nibble only
(opcode_table.json); R94 has none for it. -/
def Instr.row : Instr → Row
  | .cls => ⟨0xF00F#16, 0x0000#16⟩
  | .ret => ⟨0xF00F#16, 0x000E#16⟩
  | .jp _ => ⟨0xF000#16, 0x1000#16⟩
  | .call _ => ⟨0xF000#16, 0x2000#16⟩
  | .seByte _ _ => ⟨0xF000#16, 0x3000#16⟩
  | .sneByte _ _ => ⟨0xF000#16, 0x4000#16⟩
  | .seReg _ _ => ⟨0xF000#16, 0x5000#16⟩
  | .ldByte _ _ => ⟨0xF000#16, 0x6000#16⟩
  | .addByte _ _ => ⟨0xF000#16, 0x7000#16⟩
  | .ldReg _ _ => ⟨0xF00F#16, 0x8000#16⟩
  | .orReg _ _ => ⟨0xF00F#16, 0x8001#16⟩
  | .andReg _ _ => ⟨0xF00F#16, 0x8002#16⟩
  | .xorReg _ _ => ⟨0xF00F#16, 0x8003#16⟩
  | .addReg _ _ => ⟨0xF00F#16, 0x8004#16⟩
  | .subReg _ _ => ⟨0xF00F#16, 0x8005#16⟩
  | .shr _ _ => ⟨0xF00F#16, 0x8006#16⟩
  | .subn _ _ => ⟨0xF00F#16, 0x8007#16⟩
  | .shl _ _ => ⟨0xF00F#16, 0x800E#16⟩
  | .sneReg _ _ => ⟨0xF000#16, 0x9000#16⟩
  | .ldI _ => ⟨0xF000#16, 0xA000#16⟩
  | .jpReg _ _ => ⟨0xF000#16, 0xB000#16⟩
  | .rnd _ _ => ⟨0xF000#16, 0xC000#16⟩
  | .drw _ _ _ => ⟨0xF000#16, 0xD000#16⟩
  | .skp _ => ⟨0xF00F#16, 0xE00E#16⟩
  | .sknp _ => ⟨0xF00F#16, 0xE001#16⟩
  | .ldVxDt _ => ⟨0xF0FF#16, 0xF007#16⟩
  | .ldVxK _ => ⟨0xF0FF#16, 0xF00A#16⟩
  | .ldDtVx _ => ⟨0xF0FF#16, 0xF015#16⟩
  | .ldStVx _ => ⟨0xF0FF#16, 0xF018#16⟩
  | .addI _ => ⟨0xF0FF#16, 0xF01E#16⟩
  | .ldF _ => ⟨0xF0FF#16, 0xF029#16⟩
  | .ldB _ => ⟨0xF0FF#16, 0xF033#16⟩
  | .dump _ => ⟨0xF0FF#16, 0xF055#16⟩
  | .load _ => ⟨0xF0FF#16, 0xF065#16⟩
  | .nop0 _ => ⟨0xF000#16, 0x0000#16⟩
  | .nop8 _ => ⟨0xF000#16, 0x8000#16⟩
  | .nopE _ => ⟨0xF000#16, 0xE000#16⟩
  | .nopF _ => ⟨0xF000#16, 0xF000#16⟩

/-- A no-op, by its constructor (R90, R117). -/
def Instr.isNop : Instr → Bool
  | .nop0 _ => true
  | .nop8 _ => true
  | .nopE _ => true
  | .nopF _ => true
  | .cls | .ret | .jp _ | .call _ | .seByte _ _ | .sneByte _ _ | .seReg _ _ | .ldByte _ _
  | .addByte _ _ | .ldReg _ _ | .orReg _ _ | .andReg _ _ | .xorReg _ _ | .addReg _ _ | .subReg _ _
  | .shr _ _ | .subn _ _ | .shl _ _ | .sneReg _ _ | .ldI _ | .jpReg _ _ | .rnd _ _ | .drw _ _ _
  | .skp _ | .sknp _ | .ldVxDt _ | .ldVxK _ | .ldDtVx _ | .ldStVx _ | .addI _ | .ldF _ | .ldB _
  | .dump _ | .load _ => false

end Sys2Proof
end

