-- ==== Sys2Proof/Config.lean ====
section
/-!
DEFINITION. The named parameters of 00_scope.md R9, the fixed addresses and the font table of
20_memory.md R53 and R54, and the free random bytes of 40_cycle.md R119.
-/

namespace Sys2Proof

/-- `VF_ALIAS` (R9, 40_cycle.md R116): what VF keeps when the destination is VF itself. -/
inductive VfAlias where
  | flagWins
  | resultWins
  deriving DecidableEq, Repr

/-- `MEM_OOB` (R9, 20_memory.md R52): an access above 0xFFF is undefined, or wraps at 12 bits. -/
inductive MemOob where
  | undefined
  | wrap12
  deriving DecidableEq, Repr

/-- `KEY_OOB` (R9, 45_keys_timers.md R200): a key number above 15 is undefined, or is cut to its
low nibble. -/
inductive KeyOob where
  | undefined
  | lowNibble
  deriving DecidableEq, Repr

/-- `DRAW_EDGE` (R9, 41_display.md R131): what a sprite pixel off the grid does. -/
inductive DrawEdge where
  | clip
  | wrap
  | undefined
  deriving DecidableEq, Repr

/-- `JUMP_OFFSET_REG` (R9, 42_control.md R148): the register that `Bnnn` adds. -/
inductive JumpOffsetReg where
  | vx
  | v0
  deriving DecidableEq, Repr

/-- The five parameters of R9 that choose behaviour. The sixth, `FONT`, is a table of bytes and
becomes memory contents at construction (`State.construct`). -/
structure Params where
  vfAlias : VfAlias
  memOob : MemOob
  keyOob : KeyOob
  drawEdge : DrawEdge
  jumpOffsetReg : JumpOffsetReg
  deriving DecidableEq, Repr

/-- The defaults of R9. -/
def Params.default : Params where
  vfAlias := .flagWins
  memOob := .undefined
  keyOob := .undefined
  drawEdge := .clip
  jumpOffsetReg := .vx

namespace Config

/-- Memory holds the addresses 0x000 to 0xFFF (R8, 10_state.md R33). -/
abbrev memSize : Nat := 4096

/-- The first address of the font table (R8, 20_memory.md R54). -/
abbrev fontBase : Nat := 0x050

/-- The ROM load address and the entry point (R8, 70_reset_and_hazards.md R251, R252). -/
abbrev programBase : Nat := 0x200

/-- The longest ROM image a launch accepts (70_reset_and_hazards.md R252). -/
abbrev maxRom : Nat := 3584

/-- Framebuffer columns and rows (R8, 10_state.md R30). -/
abbrev columns : Nat := 64
abbrev rows : Nat := 32

/-- Glyphs 0 to 3 of R54. -/
def glyphs0to3 : List Byte :=
  [0xF0, 0x90, 0x90, 0x90, 0xF0] ++ [0x20, 0x60, 0x20, 0x20, 0x70] ++
  [0xF0, 0x10, 0xF0, 0x80, 0xF0] ++ [0xF0, 0x10, 0xF0, 0x10, 0xF0]

/-- Glyphs 4 to 7 of R54. -/
def glyphs4to7 : List Byte :=
  [0x90, 0x90, 0xF0, 0x10, 0x10] ++ [0xF0, 0x80, 0xF0, 0x10, 0xF0] ++
  [0xF0, 0x80, 0xF0, 0x90, 0xF0] ++ [0xF0, 0x10, 0x20, 0x40, 0x40]

/-- Glyphs 8 to B of R54. -/
def glyphs8toB : List Byte :=
  [0xF0, 0x90, 0xF0, 0x90, 0xF0] ++ [0xF0, 0x90, 0xF0, 0x10, 0xF0] ++
  [0xF0, 0x90, 0xF0, 0x90, 0x90] ++ [0xE0, 0x90, 0xE0, 0x90, 0xE0]

/-- Glyphs C to F of R54. -/
def glyphsCtoF : List Byte :=
  [0xF0, 0x80, 0x80, 0x80, 0xF0] ++ [0xE0, 0x90, 0x90, 0x90, 0xE0] ++
  [0xF0, 0x80, 0xF0, 0x80, 0xF0] ++ [0xF0, 0x80, 0xF0, 0x80, 0x80]

/-- The default `FONT` of R54: glyph d is the five bytes from 5 × d on. The spec takes these bytes
from general knowledge (D14). UNVERIFIED, unsafe: log 11. -/
def font : List Byte := glyphs0to3 ++ glyphs4to7 ++ glyphs8toB ++ glyphsCtoF

/-- The free random bytes (40_cycle.md R119, D22): the n-th byte that the random source delivers
when the host has lined none up. Nothing constrains it. DESIGN CHOICE of form, safe: log 2. -/
opaque randomByte : Nat → BitVec 8

end Config

end Sys2Proof
end

