-- ==== Sys2Proof/Machine/State.lean ====
section
/-!
DEFINITION. The machine's state between cycles (10_state.md R20 to R40), the reasons of an
undefined outcome (40_cycle.md R121), and the state after construction
(70_reset_and_hazards.md R251).
-/

namespace Sys2Proof.Machine

/-- The reasons of `raise Undefined(reason)` (40_cycle.md R121, 60_exceptions.md R221). -/
inductive Reason where
  /-- a memory access above 0xFFF under `MEM_OOB = undefined` (20_memory.md R52) -/
  | memOob
  /-- a call with 16 calls already nested (42_control.md R143) -/
  | stackOverflow
  /-- a return with an empty stack (42_control.md R141) -/
  | stackUnderflow
  /-- a key skip with Vx ≥ 16 under `KEY_OOB = undefined` (45_keys_timers.md R200) -/
  | keyOob
  /-- a set sprite bit off the grid under `DRAW_EDGE = undefined` (41_display.md R131) -/
  | drawOffscreen
  deriving DecidableEq, Repr

/-- Why a step stops. The hardware signals neither (R121, R220). -/
inductive Fault where
  /-- Raised by the case that `reason` names: the source leaves it undefined and the spec stops the
  model there (R121, D19). Safe: the model stops where a repository run might go on. -/
  | undefined (reason : Reason)
  /-- Raised by `step` on a state whose `undef` mark is set: no further cycle is taken from it
  (R121, R228). Safe: log 4. -/
  | stuck (reason : Reason)
  deriving DecidableEq, Repr

/-- Why a step or a host request is turned away. -/
inductive Refusal where
  /-- Raised by an arm of `exec` whose instruction has no meaning yet. No arm raises it. Safe. -/
  | notModelled (mnemonic : String)
  /-- Raised by the ROM load on an image longer than 3584 bytes (70_reset_and_hazards.md R252,
  D21); no instruction raises it. Safe: log 25. -/
  | romTooLong
  deriving DecidableEq, Repr

/-- Memory as (address, byte) pairs, addresses rising. An unlisted address reads as its contents
at construction (`resetByte` in Machine/Ops.lean); canonical form is `Memory.wf`. -/
abbrev Memory := List Host.Cell

/-- The framebuffer: 32 rows of 64 pixels, true for on; `fb[col, row]` is column `col` of row `row`
(10_state.md R30). -/
abbrev Framebuffer := Vector (Vector Bool 64) 32

/-- The keypad, true for pressed (10_state.md R29). -/
abbrev Keypad := Vector Bool 16

/-- The state record of 10_state.md R40, the parameters of 00_scope.md R9 (log 1) and the random
input port (40_cycle.md R119; log 2). -/
structure State where
  /-- V0 to VF (R20) -/
  V : Vector Byte 16
  /-- the index register (R23) -/
  I : Word
  /-- the program counter (R24) -/
  pc : Word
  /-- the stack pointer, the number of occupied slots (R26) -/
  SP : Byte
  /-- the return stack (R25) -/
  stack : Vector Word 16
  /-- the delay timer (R27) -/
  DT : Byte
  /-- the sound timer (R28) -/
  ST : Byte
  /-- memory (R33) -/
  mem : Memory
  /-- the framebuffer (R30) -/
  fb : Framebuffer
  /-- the keypad (R29), written by the host only -/
  key : Keypad
  /-- the sticky mark of an undefined outcome (R38) -/
  undef : Option Reason
  /-- the parameters (00_scope.md R9), fixed for the machine -/
  params : Params
  /-- the bytes lined up at the random input port, oldest first (60_exceptions.md R232) -/
  rnd : List Byte
  /-- how many free random bytes have been drawn (the model's own counter) -/
  rndCount : Nat
  deriving DecidableEq, Repr

/-- The state after construction (70_reset_and_hazards.md R250, R251), with the default
parameters. Memory lists nothing: every address reads as the contents of 20_memory.md R55.
`rnd` and `rndCount` are the model's own fields (log 2). -/
def State.reset : State where
  V := Vector.replicate 16 0x00#8
  I := 0x0000#16
  pc := 0x0200#16
  SP := 0x00#8
  stack := Vector.replicate 16 0x0000#16
  DT := 0x00#8
  ST := 0x00#8
  mem := []
  fb := Vector.replicate 32 (Vector.replicate 64 false)
  key := Vector.replicate 16 false
  undef := none
  params := Params.default
  rnd := []
  rndCount := 0

end Sys2Proof.Machine
end

