-- ==== Sys2Proof/Machine/Ops.lean ====
section
/-!
DEFINITION. The named operations over registers, memory, the framebuffer, the stack, the timers
and the program counter, each written once: 20_memory.md R52, 40_cycle.md R112, R113, R118, R119,
R121, 41_display.md R131, R132, 42_control.md R140, R141, R143.
-/

namespace Sys2Proof.Machine

/-- What an operation that may raise an undefined outcome answers. -/
abbrev Result (α : Type) := Except Fault α

/-- `raise Undefined(reason)` (R121): the one way this hardware's model stops inside a cycle. It
stands where other machines take an exception; this one has no trap entry and no return from one
(60_exceptions.md R224, R225). -/
def raise {α : Type} (reason : Reason) : Result α := .error (.undefined reason)

/-- An instruction's outcome from its result. -/
def conclude : Result State → Host.Outcome State Fault Refusal
  | .ok s => .next s
  | .error f => .fault f

/-! ## General registers (10_state.md R20, R22) -/

/-- `V[x]`. -/
def State.getV (s : State) (x : Index16) : Byte := s.V[x.val]

/-- `V[x] <- b`. -/
def State.setV (s : State) (x : Index16) (b : Byte) : State := { s with V := s.V.set x.val b }

/-- `V[i] <- b` for the bytes of a list, `i` rising: the register side of `Fx65`'s loop
(44_index_memory.md R185). -/
def setRegisters (V : Vector Byte 16) (i : Nat) : List Byte → Vector Byte 16
  | [] => V
  | b :: bs => setRegisters (V.setIfInBounds i b) (i + 1) bs

/-- `V[0]` to `V[x]` in order: the register side of `Fx55`'s loop (R184). -/
def State.firstRegisters (s : State) (x : Index16) : List Byte := s.V.toList.take (x.val + 1)

/-! ## Memory (20_memory.md R50 to R55) -/

/-- What an address holds at construction: the font table at 0x050 to 0x09F, else 0x00
(R53, R54, R55). This is what an unlisted address reads as. -/
def resetByte (a : Nat) : Byte :=
  if Config.fontBase ≤ a then Config.font.getD (a - Config.fontBase) 0x00#8 else 0x00#8

/-- The byte at an address. -/
def Memory.read : Memory → Nat → Byte
  | [], a => resetByte a
  | (k, b) :: m, a => if k = a then b else Memory.read m a

/-- Put a pair before a memory, unless the address reads as that byte unlisted. -/
def Memory.cons (a : Nat) (v : Byte) (m : Memory) : Memory :=
  if v = resetByte a then m else (a, v) :: m

/-- The memory with one byte written; canonical form is kept. -/
def Memory.write : Memory → Nat → Byte → Memory
  | [], a, v => Memory.cons a v []
  | (k, b) :: m, a, v =>
    if a < k then Memory.cons a v ((k, b) :: m)
    else if a = k then Memory.cons a v m
    else (k, b) :: Memory.write m a v

/-- Write the bytes of a list at rising addresses. -/
def Memory.writeList (m : Memory) (a : Nat) : List Byte → Memory
  | [] => m
  | b :: bs => Memory.writeList (m.write a b) (a + 1) bs

/-- The canonical form from an address on: addresses strictly rising and below 4096, no pair equal
to what the address reads as unlisted. -/
def Memory.wfFrom (lo : Nat) : Memory → Bool
  | [] => true
  | (k, b) :: m =>
    decide (lo ≤ k) && decide (k < Config.memSize) && !(b == resetByte k) && Memory.wfFrom (k + 1) m

/-- The canonical form of memory. -/
def Memory.wf (m : Memory) : Bool := Memory.wfFrom 0 m

/-- The cell that an access at the exact address `a` reaches under `MEM_OOB`, if it is defined
(R52). -/
def memCell (mode : MemOob) (a : Nat) : Option Nat :=
  if a < Config.memSize then some a
  else match mode with
    | .wrap12 => some (a % Config.memSize)
    | .undefined => none

/-- `MemRead(a, 1)` (R52). -/
def memRead (s : State) (a : Nat) : Result Byte :=
  match memCell s.params.memOob a with
  | some c => .ok (s.mem.read c)
  | none => raise .memOob

/-- `MemWrite(a, 1, v)` (R52). -/
def memWrite (s : State) (a : Nat) (v : Byte) : Result State :=
  match memCell s.params.memOob a with
  | some c => .ok { s with mem := s.mem.write c v }
  | none => raise .memOob

/-- `MemWrite` of the bytes of a list at a, a + 1, ..., lowest address first (R59, R222). -/
def storeBytes (s : State) (a : Nat) : List Byte → Result State
  | [] => .ok s
  | b :: bs =>
    match memWrite s a b with
    | .ok t => storeBytes t (a + 1) bs
    | .error f => .error f

/-- `MemRead` of n bytes at a, a + 1, ..., lowest address first (R59, R222). -/
def loadBytes (s : State) (a : Nat) : Nat → Result (List Byte)
  | 0 => .ok []
  | n + 1 =>
    match memRead s a with
    | .ok b =>
      match loadBytes s (a + 1) n with
      | .ok bs => .ok (b :: bs)
      | .error f => .error f
    | .error f => .error f

/-! ## Program counter and fetch (40_cycle.md R112, R113) -/

/-- The FETCH phase: two bytes at pc and pc + 1 as exact integers, high byte first (R112). -/
def fetch (s : State) : Result Word :=
  match memRead s s.pc.toNat with
  | .ok hi =>
    match memRead s (s.pc.toNat + 1) with
    | .ok lo => .ok (combine hi lo)
    | .error f => .error f
  | .error f => .error f

/-- `pc <- (pc + 2) mod 65536`: the ADVANCE phase (R113), and the extra 2 of a skip that holds
(42_control.md R140). -/
def State.advance (s : State) : State := { s with pc := s.pc + 2#16 }

/-- `pc <- (pc - 2) mod 65536` (45_keys_timers.md R204). -/
def State.rewind (s : State) : State := { s with pc := s.pc - 2#16 }

/-- `pc <- target`. -/
def State.jumpTo (s : State) (target : Word) : State := { s with pc := target }

/-- A skip (42_control.md R140). -/
def State.skipIf (s : State) (holds : Bool) : State := if holds then s.advance else s

/-! ## Return stack (10_state.md R25, R26) -/

/-- Store at `stack[SP]`, then increment SP (42_control.md R143). SP above 16 is no legal value
and stops the same way: log 5. -/
def State.push (s : State) (value : Word) : Result State :=
  if h : s.SP.toNat < 16 then
    .ok { s with stack := s.stack.set s.SP.toNat value, SP := s.SP + 1#8 }
  else raise .stackOverflow

/-- Decrement SP, then load `stack[SP]`; the slot is not cleared (42_control.md R141). SP above 16
is no legal value and stops as an overflow: log 5. -/
def State.pop (s : State) : Result (Word × State) :=
  if s.SP = 0#8 then raise .stackUnderflow
  else if h : s.SP.toNat - 1 < 16 then
    .ok (s.stack[s.SP.toNat - 1], { s with SP := s.SP - 1#8 })
  else raise .stackOverflow

/-! ## Timers (40_cycle.md R118) -/

/-- Decrement by 1 if non-zero. -/
def decayTimer (t : Byte) : Byte := if t = 0#8 then t else t - 1#8

/-- The DECAY phase. -/
def State.decay (s : State) : State := { s with DT := decayTimer s.DT, ST := decayTimer s.ST }

/-- The DECAY phase after an EXECUTE phase that completed. -/
def decayAfter : Host.Outcome State Fault Refusal → Host.Outcome State Fault Refusal
  | .next s => .next s.decay
  | .fault f => .fault f
  | .refused r => .refused r

/-! ## Random byte (40_cycle.md R119, 60_exceptions.md R232) -/

/-- `rand8()`: the byte at the random input port, and the state with it taken. It is the oldest
byte lined up, or else a free value (log 2). -/
def rand8 (s : State) : Byte × State :=
  match s.rnd with
  | r :: rest => (r, { s with rnd := rest })
  | [] => (Config.randomByte s.rndCount, { s with rndCount := s.rndCount + 1 })

/-! ## Keypad (45_keys_timers.md R204) -/

/-- The lowest-numbered pressed key, if any. -/
def firstPressed (key : Keypad) : Option Index16 :=
  (List.finRange 16).find? fun k => key[k.val]

/-! ## Framebuffer (41_display.md R130 to R132) -/

/-- Every pixel off (R130). -/
def Framebuffer.blank : Framebuffer := Vector.replicate 32 (Vector.replicate 64 false)

/-- `fb[col, row]`. -/
def Framebuffer.pixel (fb : Framebuffer) (col : Fin 64) (row : Fin 32) : Bool :=
  fb[row.val][col.val]

/-- `fb[col, row] <- fb[col, row] XOR 1`. -/
def Framebuffer.toggle (fb : Framebuffer) (col : Fin 64) (row : Fin 32) : Framebuffer :=
  fb.set row.val (fb[row.val].set col.val (!fb[row.val][col.val]))

/-- A framebuffer being drawn on, with the draw's collision bit `c`. -/
structure Canvas where
  fb : Framebuffer
  collision : Bool
  deriving DecidableEq, Repr

/-- Where a set sprite bit at (X, Y) is plotted under `DRAW_EDGE`: `some none` is a pixel that
`clip` does not draw, `none` the undefined outcome (R131). -/
def plotCell (edge : DrawEdge) (X Y : Nat) : Option (Option (Fin 64 × Fin 32)) :=
  if h : X < 64 ∧ Y < 32 then some (some (⟨X, h.1⟩, ⟨Y, h.2⟩))
  else match edge with
    | .clip => some none
    | .wrap => some (some (Fin.ofNat 64 X, Fin.ofNat 32 Y))
    | .undefined => none

/-- `Plot(X, Y)` (R131). -/
def plot (edge : DrawEdge) (X Y : Nat) (c : Canvas) : Result Canvas :=
  match plotCell edge X Y with
  | some (some (col, row)) =>
    .ok { fb := c.fb.toggle col row, collision := c.collision || c.fb.pixel col row }
  | some none => .ok c
  | none => raise .drawOffscreen

/-- Plot the set bits of one sprite byte in the given columns, in order; column `col` is bit
7 - col, most significant first (R132). -/
def drawByte (edge : DrawEdge) (px Y : Nat) (b : Byte) : List Nat → Canvas → Result Canvas
  | [], c => .ok c
  | col :: cols, c =>
    match (if b.getLsbD (7 - col) then plot edge (px + col) Y c else .ok c) with
    | .ok c' => drawByte edge px Y b cols c'
    | .error f => .error f

/-- The eight columns of a sprite row, left to right. -/
def spriteColumns : List Nat := [0, 1, 2, 3, 4, 5, 6, 7]

/-- Draw `n` rows of the sprite at I, from row `row` on: read the row's byte, then plot it
(R132, R222). -/
def drawRows (s : State) (px py : Nat) : (n row : Nat) → Canvas → Result Canvas
  | 0, _, c => .ok c
  | n + 1, row, c =>
    match memRead s (s.I.toNat + row) with
    | .ok b =>
      match drawByte s.params.drawEdge px (py + row) b spriteColumns c with
      | .ok c' => drawRows s px py n (row + 1) c'
      | .error f => .error f
    | .error f => .error f

end Sys2Proof.Machine
end

