-- ==== Sys2Proof/Machine/Flags.lean ====
section
/-!
DEFINITION. The five flag computations of 43_alu.md R167 to R171, each beside its result, and the
write-back of 40_cycle.md R116. A flag is a value left in VF; there is no flag register
(10_state.md R35).
-/

namespace Sys2Proof.Machine

/-- A flag as VF holds it: 1 or 0 (00_scope.md R11). -/
def flagByte (f : Bool) : Byte := if f then 1#8 else 0#8

/-- A result for Vx with the flag for VF. -/
structure Flagged where
  result : Byte
  flag : Bool
  deriving DecidableEq, Repr

/-- a + b, with the carry out of bit 7 (R167). -/
def addFlagged (a b : Byte) : Flagged where
  result := BitVec.ofNat 8 (a.toNat + b.toNat)
  flag := decide (a.toNat + b.toNat > 255)

/-- a - b, with the strict comparison a > b (R168, R170). -/
def subFlagged (a b : Byte) : Flagged where
  result := a - b
  flag := decide (a.toNat > b.toNat)

/-- b >> 1, with bit 0 of b (R169). -/
def shrFlagged (b : Byte) : Flagged where
  result := b >>> 1
  flag := b.getLsbD 0

/-- b << 1, with bit 7 of b (R171). -/
def shlFlagged (b : Byte) : Flagged where
  result := b <<< 1
  flag := b.getLsbD 7

/-- `WriteResultAndFlag(x, r, f)` (R116). -/
def State.writeResultAndFlag (s : State) (x : Index16) (r : Flagged) : State :=
  if x ≠ VF then (s.setV x r.result).setV VF (flagByte r.flag)
  else match s.params.vfAlias with
    | .flagWins => s.setV VF (flagByte r.flag)
    | .resultWins => s.setV VF r.result

end Sys2Proof.Machine
end

