-- ==== Sys2Proof/Machine/Operands.lean ====
section
/-!
DEFINITION. How operands reach an instruction: register values latched from the state the EXECUTE
phase begins in (40_cycle.md R115), key numbers (45_keys_timers.md R200), the register of
jump-with-offset (42_control.md R148), the font address (44_index_memory.md R182) and the decimal
digits (R183).
-/

namespace Sys2Proof.Machine

/-- `KeyIndex(v)` (45_keys_timers.md R200). -/
def keyIndex (mode : KeyOob) (v : Byte) : Result Index16 :=
  if h : v.toNat < 16 then .ok ⟨v.toNat, h⟩
  else match mode with
    | .lowNibble => .ok (v.extractLsb' 0 4).toFin
    | .undefined => raise .keyOob

/-- Whether the key numbered `v` is pressed. -/
def keyPressed (s : State) (v : Byte) : Result Bool :=
  match keyIndex s.params.keyOob v with
  | .ok k => .ok s.key[k.val]
  | .error f => .error f

/-- The register that jump-with-offset adds (42_control.md R148). -/
def jumpRegister (mode : JumpOffsetReg) (x : Index16) : Index16 :=
  match mode with
  | .vx => x
  | .v0 => 0

/-- The address of the glyph of a digit value, the full eight bits used
(44_index_memory.md R182, D24). -/
def glyphAddress (v : Byte) : Word := BitVec.ofNat 16 (Config.fontBase + 5 * v.toNat)

/-- The three decimal digits of a byte: hundreds, tens, units (44_index_memory.md R183). -/
def decimalDigits (v : Byte) : List Byte :=
  [BitVec.ofNat 8 (v.toNat / 100), BitVec.ofNat 8 (v.toNat / 10 % 10), BitVec.ofNat 8 (v.toNat % 10)]

end Sys2Proof.Machine
end

