-- ==== Sys2Proof/Machine/Alu.lean ====
section
/-!
DEFINITION. Register arithmetic and logic (43_alu.md), and random-and.
-/

namespace Sys2Proof.Machine

/-- LD Vx, kk (R161). -/
def execLdByte (x : Index16) (kk : Byte) (s : State) : Host.Outcome State Fault Refusal :=
  .next (s.setV x kk)

/-- ADD Vx, kk (R162): no flag. -/
def execAddByte (x : Index16) (kk : Byte) (s : State) : Host.Outcome State Fault Refusal :=
  .next (s.setV x (s.getV x + kk))

/-- LD Vx, Vy (R163). -/
def execLdReg (x y : Index16) (s : State) : Host.Outcome State Fault Refusal :=
  .next (s.setV x (s.getV y))

/-- OR Vx, Vy (R164): no flag. -/
def execOrReg (x y : Index16) (s : State) : Host.Outcome State Fault Refusal :=
  .next (s.setV x (s.getV x ||| s.getV y))

/-- AND Vx, Vy (R165): no flag. -/
def execAndReg (x y : Index16) (s : State) : Host.Outcome State Fault Refusal :=
  .next (s.setV x (s.getV x &&& s.getV y))

/-- XOR Vx, Vy (R166): no flag. -/
def execXorReg (x y : Index16) (s : State) : Host.Outcome State Fault Refusal :=
  .next (s.setV x (s.getV x ^^^ s.getV y))

/-- ADD Vx, Vy (R167): VF is the carry. -/
def execAddReg (x y : Index16) (s : State) : Host.Outcome State Fault Refusal :=
  .next (s.writeResultAndFlag x (addFlagged (s.getV x) (s.getV y)))

/-- SUB Vx, Vy (R168): VF is Vx > Vy. -/
def execSubReg (x y : Index16) (s : State) : Host.Outcome State Fault Refusal :=
  .next (s.writeResultAndFlag x (subFlagged (s.getV x) (s.getV y)))

/-- SHR Vx, Vy (R169): it shifts Vy and does not read Vx. -/
def execShr (x y : Index16) (s : State) : Host.Outcome State Fault Refusal :=
  .next (s.writeResultAndFlag x (shrFlagged (s.getV y)))

/-- SUBN Vx, Vy (R170): VF is Vy > Vx. -/
def execSubn (x y : Index16) (s : State) : Host.Outcome State Fault Refusal :=
  .next (s.writeResultAndFlag x (subFlagged (s.getV y) (s.getV x)))

/-- SHL Vx, Vy (R171): it shifts Vy and does not read Vx. -/
def execShl (x y : Index16) (s : State) : Host.Outcome State Fault Refusal :=
  .next (s.writeResultAndFlag x (shlFlagged (s.getV y)))

/-- RND Vx, kk (R172): the byte is the random input's (40_cycle.md R119). -/
def execRnd (x : Index16) (kk : Byte) (s : State) : Host.Outcome State Fault Refusal :=
  .next ((rand8 s).2.setV x ((rand8 s).1 &&& kk))

end Sys2Proof.Machine
end

