-- ==== Sys2Proof/Machine/Control.lean ====
section
/-!
DEFINITION. Control-flow instructions (42_control.md). In the EXECUTE phase pc already holds the
instruction's address + 2 (40_cycle.md R113).
-/

namespace Sys2Proof.Machine

/-- RET (R141). -/
def execRet (s : State) : Host.Outcome State Fault Refusal :=
  match s.pop with
  | .ok (target, t) => .next (t.jumpTo target)
  | .error f => .fault f

/-- JP addr (R142). -/
def execJp (nnn : Addr12) (s : State) : Host.Outcome State Fault Refusal :=
  .next (s.jumpTo (zextAddr nnn))

/-- CALL addr (R143). -/
def execCall (nnn : Addr12) (s : State) : Host.Outcome State Fault Refusal :=
  match s.push s.pc with
  | .ok t => .next (t.jumpTo (zextAddr nnn))
  | .error f => .fault f

/-- SE Vx, kk (R144). -/
def execSeByte (x : Index16) (kk : Byte) (s : State) : Host.Outcome State Fault Refusal :=
  .next (s.skipIf (s.getV x == kk))

/-- SNE Vx, kk (R145). -/
def execSneByte (x : Index16) (kk : Byte) (s : State) : Host.Outcome State Fault Refusal :=
  .next (s.skipIf (s.getV x != kk))

/-- SE Vx, Vy (R146). -/
def execSeReg (x y : Index16) (s : State) : Host.Outcome State Fault Refusal :=
  .next (s.skipIf (s.getV x == s.getV y))

/-- SNE Vx, Vy (R147). -/
def execSneReg (x y : Index16) (s : State) : Host.Outcome State Fault Refusal :=
  .next (s.skipIf (s.getV x != s.getV y))

/-- JP Vx, addr (R148). -/
def execJpReg (nnn : Addr12) (x : Index16) (s : State) : Host.Outcome State Fault Refusal :=
  .next (s.jumpTo (zextAddr nnn + zextByte (s.getV (jumpRegister s.params.jumpOffsetReg x))))

end Sys2Proof.Machine
end

