-- ==== Sys2Proof/Machine/Display.lean ====
section
/-!
DEFINITION. Display instructions (41_display.md): clear-screen and draw-sprite.
-/

namespace Sys2Proof.Machine

/-- CLS (R130). -/
def execCls (s : State) : Host.Outcome State Fault Refusal :=
  .next { s with fb := Framebuffer.blank }

/-- DRW Vx, Vy, n (R132). The position is latched before VF is written (40_cycle.md R115). -/
def execDrw (x y n : Index16) (s : State) : Host.Outcome State Fault Refusal :=
  match drawRows s ((s.getV x).toNat % 64) ((s.getV y).toNat % 32) n.val 0
      { fb := s.fb, collision := false } with
  | .ok c => .next ({ s with fb := c.fb }.setV VF (if c.collision then 1#8 else 0#8))
  | .error f => .fault f

end Sys2Proof.Machine
end

