-- ==== Sys2Proof/Machine/IndexMemory.lean ====
section
/-!
DEFINITION. Index register and memory instructions (44_index_memory.md). None of them but the
first three changes I (D9; log 17).
-/

namespace Sys2Proof.Machine

/-- LD I, addr (R180). -/
def execLdI (nnn : Addr12) (s : State) : Host.Outcome State Fault Refusal :=
  .next { s with I := zextAddr nnn }

/-- ADD I, Vx (R181): modulo 65536, no flag. -/
def execAddI (x : Index16) (s : State) : Host.Outcome State Fault Refusal :=
  .next { s with I := s.I + zextByte (s.getV x) }

/-- LD F, Vx (R182): the full Vx, no memory access. -/
def execLdF (x : Index16) (s : State) : Host.Outcome State Fault Refusal :=
  .next { s with I := glyphAddress (s.getV x) }

/-- LD B, Vx (R183). -/
def execLdB (x : Index16) (s : State) : Host.Outcome State Fault Refusal :=
  conclude (storeBytes s s.I.toNat (decimalDigits (s.getV x)))

/-- LD [I], Vx (R184): V0 to Vx, inclusive. -/
def execDump (x : Index16) (s : State) : Host.Outcome State Fault Refusal :=
  conclude (storeBytes s s.I.toNat (s.firstRegisters x))

/-- LD Vx, [I] (R185): V0 to Vx, inclusive. -/
def execLoad (x : Index16) (s : State) : Host.Outcome State Fault Refusal :=
  match loadBytes s s.I.toNat (x.val + 1) with
  | .ok bs => .next { s with V := setRegisters s.V 0 bs }
  | .error f => .fault f

end Sys2Proof.Machine
end

