-- ==== Sys2Proof/Machine/KeysTimers.lean ====
section
/-!
DEFINITION. Keypad and timer instructions (45_keys_timers.md). The timers decay after this, in the
same cycle (40_cycle.md R118).
-/

namespace Sys2Proof.Machine

/-- SKP Vx (R201). -/
def execSkp (x : Index16) (s : State) : Host.Outcome State Fault Refusal :=
  match keyPressed s (s.getV x) with
  | .ok pressed => .next (s.skipIf pressed)
  | .error f => .fault f

/-- SKNP Vx (R202). -/
def execSknp (x : Index16) (s : State) : Host.Outcome State Fault Refusal :=
  match keyPressed s (s.getV x) with
  | .ok pressed => .next (s.skipIf (!pressed))
  | .error f => .fault f

/-- LD Vx, DT (R203): the value before this cycle's decay. -/
def execLdVxDt (x : Index16) (s : State) : Host.Outcome State Fault Refusal :=
  .next (s.setV x s.DT)

/-- LD Vx, K (R204): the lowest pressed key, or back to this instruction. -/
def execLdVxK (x : Index16) (s : State) : Host.Outcome State Fault Refusal :=
  match firstPressed s.key with
  | some k => .next (s.setV x (BitVec.ofNat 8 k.val))
  | none => .next s.rewind

/-- LD DT, Vx (R205). -/
def execLdDtVx (x : Index16) (s : State) : Host.Outcome State Fault Refusal :=
  .next { s with DT := s.getV x }

/-- LD ST, Vx (R206). -/
def execLdStVx (x : Index16) (s : State) : Host.Outcome State Fault Refusal :=
  .next { s with ST := s.getV x }

end Sys2Proof.Machine
end

