-- ==== Sys2Proof/Machine/Nop.lean ====
section
/-!
DEFINITION. The no-ops of the undefined dispatch slots (30_encoding.md R90, 40_cycle.md R117): an
empty EXECUTE phase.
-/

namespace Sys2Proof.Machine

/-- An undefined slot of family 0x0. -/
def execNop0 (s : State) : Host.Outcome State Fault Refusal := .next s

/-- An undefined slot of family 0x8. -/
def execNop8 (s : State) : Host.Outcome State Fault Refusal := .next s

/-- An undefined slot of family 0xE. -/
def execNopE (s : State) : Host.Outcome State Fault Refusal := .next s

/-- An undefined slot of family 0xF. -/
def execNopF (s : State) : Host.Outcome State Fault Refusal := .next s

end Sys2Proof.Machine
end

