-- ==== Sys2Proof/Machine/Step.lean ====
section
/-!
DEFINITION. One cycle (40_cycle.md R110, R111): fetch, advance, execute, decay.
-/

namespace Sys2Proof.Machine

/-- One cycle of the machine (R111). From a state whose mark is set no cycle is taken (R121). -/
def step (s : State) : Host.Outcome State Fault Refusal :=
  match s.undef with
  | some reason => .fault (.stuck reason)
  | none =>
    match fetch s with
    | .ok op => decayAfter (exec (decode op) s.advance)
    | .error f => .fault f

/-- `s` with the instruction whose bits are `w` stored at the two cells that the next fetch reads.
Where an address of the fetch is undefined (20_memory.md R52) its byte is not stored. -/
def State.withFetchWord (s : State) (nbits w : Nat) : State :=
  match storeBytes s s.pc.toNat (opBytes (tableWord nbits w)) with
  | .ok t => t
  | .error _ => s

end Sys2Proof.Machine
end

