-- ==== Sys2Proof/Machine/HostPort.lean ====
section
/-!
DEFINITION. The host's side of the block, between cycles (60_exceptions.md R228 to R236,
70_reset_and_hazards.md R250 to R253, 10_state.md R31, R32).
-/

namespace Sys2Proof.Machine

/-! ## Construction, ROM load and launch -/

/-- Construction with other parameters and another `FONT` (00_scope.md R9, 20_memory.md R54). With
the defaults it is `State.reset`. -/
def State.construct (params : Params) (font : Vector Byte 80) : State :=
  { State.reset with
    params := params
    mem := Memory.writeList State.reset.mem Config.fontBase font.toList }

/-- The ROM load (70_reset_and_hazards.md R252): byte j of the image goes to 0x200 + j. `none` is a
file that cannot be read, which is skipped silently. A longer image than memory holds is refused
(D21). -/
def State.loadRom (s : State) : Option (List Byte) → Host.Outcome State Fault Refusal
  | none => .next s
  | some image =>
    if image.length ≤ Config.maxRom then
      .next { s with mem := Memory.writeList s.mem Config.programBase image }
    else .refused .romTooLong

/-- The keypad port (60_exceptions.md R230): the host's write of the sixteen key states. -/
def State.setKeys (s : State) (key : Keypad) : State := { s with key := key }

/-- The random input (60_exceptions.md R232): the source lines up one more byte. -/
def State.offerRandom (s : State) (r : Byte) : State := { s with rnd := s.rnd ++ [r] }

/-- A launch (70_reset_and_hazards.md R253): construction, the ROM load and a keypad value. -/
def launch (params : Params) (font : Vector Byte 80) (image : List Byte) (key : Keypad) :
    Host.Outcome State Fault Refusal :=
  match (State.construct params font).loadRom (some image) with
  | .next s => .next (s.setKeys key)
  | .fault f => .fault f
  | .refused r => .refused r

/-! ## The ports read between cycles -/

/-- The video port's cell `row * 64 + col` (10_state.md R31, R32, 60_exceptions.md R231). -/
def State.video (s : State) (cell : Fin 2048) : BitVec 32 :=
  if s.fb.pixel (Fin.ofNat 64 cell.val) (Fin.ofNat 32 (cell.val / 64)) then 0xFFFFFFFF#32
  else 0x00000000#32

/-- The sound output (60_exceptions.md R229). -/
def State.sound (s : State) : Bool := s.ST != 0#8

/-! ## The cycle port and the host's moves -/

/-- One request at the cycle port as a state (40_cycle.md R111, R121): an undefined outcome sets the
sticky mark, and a marked state takes no cycle. The fields beside the mark are not specified then;
the model keeps the ones from before the cycle (log 3). -/
def State.cycle (s : State) : State :=
  match step s with
  | .next t => t
  | .fault (.undefined reason) => { s with undef := some reason }
  | .fault (.stuck _) => s
  | .refused _ => s

/-- What the host may do between cycles (60_exceptions.md R236). -/
inductive HostMove where
  /-- request the next cycle (R228) -/
  | cycle
  /-- write the keypad (R230) -/
  | keys (key : Keypad)
  /-- the random source lines up a byte (R232) -/
  | random (r : Byte)
  deriving DecidableEq, Repr

/-- One move of the host. -/
def State.hostMove (s : State) : HostMove → State
  | .cycle => s.cycle
  | .keys key => s.setKeys key
  | .random r => s.offerRandom r

/-- A run: the host's moves in order (70_reset_and_hazards.md R263). -/
def State.runHost (s : State) : List HostMove → State
  | [] => s
  | m :: ms => (s.hostMove m).runHost ms

end Sys2Proof.Machine
end

