-- ==== Sys2Proof/Safety.lean ====
section
/-!
DEFINITION. The terms claims use: the machine's invariant, when an access or an instruction is
defined, what a draw covers, which registers an instruction may write, and runs of cycles.
-/

namespace Sys2Proof

/-- The opcode's slot is undefined, in the words of 30_encoding.md R90. -/
def UndefinedSlot (op : Word) : Prop :=
  (op.extractLsb' 12 4 = 0x0#4 ∧ op.extractLsb' 0 4 ≠ 0x0#4 ∧ op.extractLsb' 0 4 ≠ 0xE#4) ∨
  (op.extractLsb' 12 4 = 0x8#4 ∧ 8 ≤ (op.extractLsb' 0 4).toNat ∧ op.extractLsb' 0 4 ≠ 0xE#4) ∨
  (op.extractLsb' 12 4 = 0xE#4 ∧ op.extractLsb' 0 4 ≠ 0xE#4 ∧ op.extractLsb' 0 4 ≠ 0x1#4) ∨
  (op.extractLsb' 12 4 = 0xF#4 ∧
    (op.extractLsb' 0 8).toNat ∉ [0x07, 0x0A, 0x15, 0x18, 0x1E, 0x29, 0x33, 0x55, 0x65])

/-- The registers an instruction may write (the table of 10_state.md R22). -/
def Instr.mayWrite (i : Instr) (r : Index16) : Prop :=
  match i with
  | .ldByte x _ => r = x
  | .addByte x _ => r = x
  | .ldReg x _ => r = x
  | .orReg x _ => r = x
  | .andReg x _ => r = x
  | .xorReg x _ => r = x
  | .rnd x _ => r = x
  | .ldVxDt x => r = x
  | .ldVxK x => r = x
  | .addReg x _ => r = x ∨ r = VF
  | .subReg x _ => r = x ∨ r = VF
  | .shr x _ => r = x ∨ r = VF
  | .subn x _ => r = x ∨ r = VF
  | .shl x _ => r = x ∨ r = VF
  | .drw _ _ _ => r = VF
  | .load x => r ≤ x
  | .cls | .ret | .jp _ | .call _ | .seByte _ _ | .sneByte _ _ | .seReg _ _ | .sneReg _ _
  | .ldI _ | .jpReg _ _ | .skp _ | .sknp _ | .ldDtVx _ | .ldStVx _ | .addI _ | .ldF _ | .ldB _
  | .dump _ | .nop0 _ | .nop8 _ | .nopE _ | .nopF _ => False

/-- The instructions that write pc beyond the cycle's advance (10_state.md R24). -/
def Instr.writesPc : Instr → Bool
  | .ret | .jp _ | .call _ | .jpReg _ _ | .seByte _ _ | .sneByte _ _ | .seReg _ _ | .sneReg _ _
  | .skp _ | .sknp _ | .ldVxK _ => true
  | .cls | .ldByte _ _ | .addByte _ _ | .ldReg _ _ | .orReg _ _ | .andReg _ _ | .xorReg _ _
  | .addReg _ _ | .subReg _ _ | .shr _ _ | .subn _ _ | .shl _ _ | .ldI _ | .rnd _ _ | .drw _ _ _
  | .ldVxDt _ | .ldDtVx _ | .ldStVx _ | .addI _ | .ldF _ | .ldB _ | .dump _ | .load _ | .nop0 _
  | .nop8 _ | .nopE _ | .nopF _ => false

namespace Machine

/-- The machine's invariant: memory is in canonical form and the stack pointer is a legal value
(10_state.md R26). -/
def State.Inv (s : State) : Prop := s.mem.wf = true ∧ s.SP.toNat ≤ 16

/-! ## Accesses to memory -/

/-- Every address of an access of `n` bytes from `a` on is defined (20_memory.md R52, R59). -/
def State.Accessible (s : State) (a n : Nat) : Prop :=
  ∀ k, k < n → memCell s.params.memOob (a + k) ≠ none

/-- The cell `c` is one of those that an access of `n` bytes from `a` on reaches. -/
def State.Reaches (s : State) (a n c : Nat) : Prop :=
  ∃ k, k < n ∧ memCell s.params.memOob (a + k) = some c

/-! ## Drawing (41_display.md R131, R132) -/

/-- The column a draw starts at: Vx mod 64. -/
def State.drawX (s : State) (x : Index16) : Nat := (s.getV x).toNat % 64

/-- The row a draw starts at: Vy mod 32. -/
def State.drawY (s : State) (y : Index16) : Nat := (s.getV y).toNat % 32

/-- The sprite at I has a set bit in row `r`, column `c`, most significant bit first. -/
def State.SpriteBit (s : State) (r c : Nat) : Prop :=
  ∃ b, memRead s (s.I.toNat + r) = .ok b ∧ b.getLsbD (7 - c) = true

/-- The position of a sprite bit is the pixel (col, row): on the grid as it stands, and under
`wrap` after the reduction. -/
def OnPixel (edge : DrawEdge) (X Y : Nat) (col : Fin 64) (row : Fin 32) : Prop :=
  match edge with
  | .wrap => X % 64 = col.val ∧ Y % 32 = row.val
  | .clip => X = col.val ∧ Y = row.val
  | .undefined => X = col.val ∧ Y = row.val

/-- Some set bit of the n-row sprite falls on the pixel (col, row). -/
def State.Covers (s : State) (x y n : Index16) (col : Fin 64) (row : Fin 32) : Prop :=
  ∃ r c, r < n.val ∧ c < 8 ∧ s.SpriteBit r c ∧
    OnPixel s.params.drawEdge (s.drawX x + c) (s.drawY y + r) col row

/-- Row `r` of the sprite has a set bit off the grid. -/
def State.RowOffGrid (s : State) (x y : Index16) (r : Nat) : Prop :=
  ∃ c, c < 8 ∧ s.SpriteBit r c ∧ ¬ (s.drawX x + c < 64 ∧ s.drawY y + r < 32)

/-! ## Defined instructions -/

/-- The key number a key skip uses is defined (45_keys_timers.md R200). -/
def State.KeyDefined (s : State) (x : Index16) : Prop :=
  (s.getV x).toNat < 16 ∨ s.params.keyOob = .lowNibble

/-- The instruction reaches no undefined case in this state (the list of 60_exceptions.md R221). -/
def State.Defined (s : State) (i : Instr) : Prop :=
  match i with
  | .ret => 1 ≤ s.SP.toNat ∧ s.SP.toNat ≤ 16
  | .call _ => s.SP.toNat < 16
  | .drw x y n => s.Accessible s.I.toNat n.val ∧
      (s.params.drawEdge = .undefined → ∀ r, r < n.val → ¬ s.RowOffGrid x y r)
  | .skp x => s.KeyDefined x
  | .sknp x => s.KeyDefined x
  | .ldB _ => s.Accessible s.I.toNat 3
  | .dump x => s.Accessible s.I.toNat (x.val + 1)
  | .load x => s.Accessible s.I.toNat (x.val + 1)
  | .cls | .jp _ | .seByte _ _ | .sneByte _ _ | .seReg _ _ | .sneReg _ _ | .ldByte _ _
  | .addByte _ _ | .ldReg _ _ | .orReg _ _ | .andReg _ _ | .xorReg _ _ | .addReg _ _ | .subReg _ _
  | .shr _ _ | .subn _ _ | .shl _ _ | .ldI _ | .jpReg _ _ | .rnd _ _ | .ldVxDt _ | .ldVxK _
  | .ldDtVx _ | .ldStVx _ | .addI _ | .ldF _ | .nop0 _ | .nop8 _ | .nopE _ | .nopF _ => True

/-! ## Runs of cycles -/

/-- `k` cycles lead from `s` to `t`, and every instruction they execute satisfies `P`. -/
def Cycles (P : Instr → Prop) : Nat → State → State → Prop
  | 0, s, t => t = s
  | k + 1, s, t => ∃ op u, fetch s = .ok op ∧ P (decode op) ∧ step s = .next u ∧ Cycles P k u t

end Machine

end Sys2Proof
end

