-- ==== Sys2Proof/Certificates/Slice0/Obligations.lean ====
section
/-!
DEFINITION. The statements for the provers, from the numbered rules of spec/. Opcode fields are
written out as bits (30_encoding.md R81): `op.extractLsb' 12 4` is op[15:12], `op.extractLsb' 8 4`
is op[11:8], and so on. Which opcodes select an instruction is taken from the "Encoding" sentence
of the instruction's own rule. "Decision Dn" is the spec's own choice in 92_eei_decisions.md.
-/

open Sys2Proof Sys2Proof.Machine

/-! ## Encoding -/

/-- O1. Words written out from the spec's examples and its decode vectors (95_test_vectors.md,
30_encoding.md R85 to R89) decode to the instructions they stand for. -/
def Obligations.WrittenWordsDecode : Prop :=
  decode 0x00E0#16 = .cls ∧ decode 0x0FF0#16 = .cls ∧ decode 0x012E#16 = .ret ∧
  decode 0x0123#16 = .nop0 0x123#12 ∧ decode 0x1204#16 = .jp 0x204#12 ∧
  decode 0x5121#16 = .seReg 1 2 ∧ decode 0x6A05#16 = .ldByte 10 0x05#8 ∧
  decode 0x8AB4#16 = .addReg 10 11 ∧ decode 0x8008#16 = .nop8 0x008#12 ∧
  decode 0xA2F0#16 = .ldI 0x2F0#12 ∧ decode 0xB230#16 = .jpReg 0x230#12 2 ∧
  decode 0xD005#16 = .drw 0 0 5 ∧ decode 0xE00E#16 = .skp 0 ∧ decode 0xE0F1#16 = .sknp 0 ∧
  decode 0xE00F#16 = .nopE 0x00F#12 ∧ decode 0xF265#16 = .load 2 ∧
  decode 0xF0FF#16 = .nopF 0x0FF#12

/-- O2. Decoding the bytes of a well-formed instruction gives the instruction back, with every
operand, and leaves the bytes after it (R94, R97). -/
def Obligations.EncodeThenDecodeGivesInstruction : Prop :=
  ∀ (i : Instr) (rest : List Byte), i.wf = true →
    decodeBytes (encodeBytes i ++ rest) = .ok (i, rest)

/-- O3. Every opcode decodes to a well-formed instruction (R97: the decoder is total), whose
canonical opcode decodes to the same instruction and is the opcode itself, unless the instruction
is one of those with ignored bits (R83, R92, R94). -/
def Obligations.DecodeThenEncodeKeepsOpcode : Prop :=
  ∀ op : Word, (decode op).wf = true ∧ decode (encode (decode op)) = decode op ∧
    (encode (decode op) = op ∨
      decode op = .cls ∨ decode op = .ret ∨ (∃ x y, decode op = .seReg x y) ∨
      (∃ x y, decode op = .sneReg x y) ∨ (∃ x, decode op = .skp x) ∨ (∃ x, decode op = .sknp x))

/-- O4. An opcode selects an operation's row of R94 exactly when it agrees with the row's match
under the row's mask, and an opcode that no operation's row matches decodes to a no-op. -/
def Obligations.OpcodeSelectsRowByMask : Prop :=
  (∀ (op : Word) (i : Instr), i.isNop = false →
    (op &&& i.row.mask = i.row.pattern ↔ (decode op).row = i.row)) ∧
  ∀ op : Word, (∀ i : Instr, i.isNop = false → op &&& i.row.mask ≠ i.row.pattern) →
    (decode op).isNop = true

/-- O5. R117: a cycle on an opcode whose slot is undefined (R90) advances pc by 2 and decays the
timers, and changes nothing else; the execute phase of each of the four no-op rows is empty. -/
def Obligations.UndefinedSlotIsNoOpCycle : Prop :=
  (∀ (s : State) (op : Word), s.undef = none → fetch s = .ok op → UndefinedSlot op →
    step s = .next { s with
      pc := s.pc + 2#16
      DT := if s.DT = 0#8 then 0#8 else s.DT - 1#8
      ST := if s.ST = 0#8 then 0#8 else s.ST - 1#8 }) ∧
  ∀ (low : Addr12) (s : State), exec (.nop0 low) s = .next s ∧ exec (.nop8 low) s = .next s ∧
    exec (.nopE low) s = .next s ∧ exec (.nopF low) s = .next s

/-- O6. Opcodes that differ only in the bits that R92 names decode alike: op[11:4] of family 0x0,
op[7:4] of family 0xE, op[3:0] of 5xyN and 9xyN (for the slots that name an operation). -/
def Obligations.IgnoredBitsHaveNoEffect : Prop :=
  ∀ a b : Word, a.extractLsb' 12 4 = b.extractLsb' 12 4 →
    (a.extractLsb' 12 4 = 0x0#4 → a.extractLsb' 0 4 = b.extractLsb' 0 4 →
      (a.extractLsb' 0 4 = 0x0#4 ∨ a.extractLsb' 0 4 = 0xE#4) → decode a = decode b) ∧
    ((a.extractLsb' 12 4 = 0x5#4 ∨ a.extractLsb' 12 4 = 0x9#4) →
      a.extractLsb' 4 8 = b.extractLsb' 4 8 → decode a = decode b) ∧
    (a.extractLsb' 12 4 = 0xE#4 → a.extractLsb' 8 4 = b.extractLsb' 8 4 →
      a.extractLsb' 0 4 = b.extractLsb' 0 4 →
      (a.extractLsb' 0 4 = 0xE#4 ∨ a.extractLsb' 0 4 = 0x1#4) → decode a = decode b)

/-! ## Reset and the invariant -/

/-- O7. The state after construction (70_reset_and_hazards.md R251). I, the framebuffer and the
keypad are the spec's own decisions (D10, D11, D12; log 13), the glyph bytes general knowledge
(D14; log 11), `params` the defaults of 00_scope.md R9 (log 1). -/
def Obligations.ResetLeavesConstructedState : Prop :=
  (∀ r : Index16, State.reset.getV r = 0x00#8) ∧ State.reset.I = 0x0000#16 ∧
  State.reset.pc = 0x0200#16 ∧ State.reset.SP = 0x00#8 ∧
  (∀ k : Fin 16, State.reset.stack[k.val] = 0x0000#16) ∧
  State.reset.DT = 0x00#8 ∧ State.reset.ST = 0x00#8 ∧
  (∀ a, a ≤ 0xFFF → memRead State.reset a =
    .ok (if 0x050 ≤ a ∧ a ≤ 0x09F then Config.font.getD (a - 0x050) 0x00#8 else 0x00#8)) ∧
  (∀ col row, State.reset.fb.pixel col row = false) ∧
  (∀ k : Index16, State.reset.key[k.val] = false) ∧
  State.reset.undef = none ∧ State.reset.params = Params.default

/-- O8. The state after construction meets the invariant. -/
def Obligations.ResetMeetsInvariant : Prop := State.reset.Inv

/-- O9. Every completed cycle keeps the invariant: memory stays in canonical form (log 10), with
addresses below 4096 only, and SP stays in 0 to 16 (10_state.md R26, 90_conflicts.md C2). -/
def Obligations.EveryCycleKeepsInvariant : Prop :=
  ∀ s t : State, s.Inv → step s = .next t → t.Inv

/-- O10. From any launch, whatever the host does between cycles (60_exceptions.md R236, R253), the
invariant holds (memory in the model's canonical form, log 10; SP in 0 to 16) and the parameters,
which the model holds in State (log 1), are the launch's. After an undefined outcome, where R121
leaves the state unspecified, this rests on the model's choice that `State.cycle` keeps every field
but the mark (log 3). -/
def Obligations.HostRunsKeepInvariant : Prop :=
  ∀ (params : Params) (font : Vector Byte 80) (image : List Byte) (key : Keypad)
    (moves : List HostMove) (s : State), launch params font image key = .next s →
    (s.runHost moves).Inv ∧ (s.runHost moves).params = params

/-! ## The cycle -/

/-- O11. R113, R118: a cycle whose two bytes at pc decode to `i` runs `i` with pc advanced by 2
(modulo 65536, by the width), and after a completed execute phase decrements each timer that this
phase left non-zero. -/
def Obligations.CycleRunsDecodedInstruction : Prop :=
  ∀ (s : State) (hi lo : Byte) (i : Instr), s.undef = none → memRead s s.pc.toNat = .ok hi →
    memRead s (s.pc.toNat + 1) = .ok lo → decodeBytes [hi, lo] = .ok (i, []) →
    step s = match exec i { s with pc := s.pc + 2#16 } with
      | .next t => .next { t with
          DT := if t.DT = 0#8 then 0#8 else t.DT - 1#8
          ST := if t.ST = 0#8 then 0#8 else t.ST - 1#8 }
      | .fault f => .fault f
      | .refused r => .refused r

/-- O12. R56: the fetch reads the byte at pc as op[15:8] and the byte at pc + 1 as op[7:0]. -/
def Obligations.FetchIsBigEndian : Prop :=
  ∀ (s : State) (hi lo : Byte), memRead s s.pc.toNat = .ok hi →
    memRead s (s.pc.toNat + 1) = .ok lo →
    ∃ op, fetch s = .ok op ∧ op.extractLsb' 8 8 = hi ∧ op.extractLsb' 0 8 = lo

/-- O13. A fetch with pc ≥ 0xFFF stops with `MEM_OOB` under `MEM_OOB = undefined`, and so does the
cycle (40_cycle.md R112, decision D4; log 18). -/
def Obligations.FetchBeyondMemoryStops : Prop :=
  ∀ s : State, s.undef = none → s.params.memOob = .undefined → 0xFFF ≤ s.pc.toNat →
    step s = .fault (.undefined .memOob)

/-! ## Memory -/

/-- O14. `MemRead` and `MemWrite` (20_memory.md R52; the case above 0xFFF is decision D4, log 18):
an address up to 0xFFF reaches its own cell, a higher one the cell modulo 4096 under `wrap12`, and
under `undefined` the access stops. A write changes that cell only. -/
def Obligations.MemoryAccessByAddress : Prop :=
  ∀ (s : State) (a : Nat) (v : Byte), s.mem.wf = true →
    (∀ c, (a ≤ 0xFFF ∧ c = a) ∨ (0xFFF < a ∧ s.params.memOob = .wrap12 ∧ c = a % 4096) →
      memRead s a = .ok (s.mem.read c) ∧
      ∃ t, memWrite s a v = .ok t ∧ t = { s with mem := t.mem } ∧ t.mem.wf = true ∧
        ∀ b, t.mem.read b = if b = c then v else s.mem.read b) ∧
    (0xFFF < a → s.params.memOob = .undefined →
      memRead s a = .error (.undefined .memOob) ∧ memWrite s a v = .error (.undefined .memOob))

/-- O15. Memories in canonical form that read alike at every address of the space are equal (the
model's form of memory, log 10). -/
def Obligations.EqualContentsMeanEqualMemory : Prop :=
  ∀ m₁ m₂ : Memory, m₁.wf = true → m₂.wf = true →
    (∀ a, a < 4096 → m₁.read a = m₂.read a) → m₁ = m₂

/-! ## Display -/

/-- O16. R130: CLS leaves every pixel off and changes nothing else. -/
def Obligations.ClearScreenTurnsEveryPixelOff : Prop :=
  (∀ op : Word, op.extractLsb' 12 4 = 0x0#4 → op.extractLsb' 0 4 = 0x0#4 → decode op = .cls) ∧
  ∀ s : State, ∃ t, exec .cls s = .next t ∧ (∀ col row, t.fb.pixel col row = false) ∧
    t = { s with fb := t.fb }

/-- O17. R131, R132, R133: where DRW is defined it toggles exactly the pixels its set bits fall on,
clipped, wrapped or on the grid as `DRAW_EDGE` says (decision D7, log 20), and writes VF with 1 if
one of those was on and 0 otherwise; nothing else changes. -/
def Obligations.DrawTogglesCoveredPixels : Prop :=
  ∀ (x y n : Index16) (s : State), s.Defined (.drw x y n) →
    ∃ t, exec (.drw x y n) s = .next t ∧
      (∀ col row, s.Covers x y n col row → t.fb.pixel col row = !s.fb.pixel col row) ∧
      (∀ col row, ¬ s.Covers x y n col row → t.fb.pixel col row = s.fb.pixel col row) ∧
      ((∃ col row, s.Covers x y n col row ∧ s.fb.pixel col row = true) → t.getV VF = 1#8) ∧
      (¬ (∃ col row, s.Covers x y n col row ∧ s.fb.pixel col row = true) → t.getV VF = 0#8) ∧
      (∀ r, r ≠ VF → t.getV r = s.getV r) ∧ t = { s with V := t.V, fb := t.fb }

/-- O18. DRW stops at the first row that cannot be read or, under `DRAW_EDGE = undefined`, has a
set bit off the grid, and a row's read comes before its pixels (60_exceptions.md R222; decisions
D4, D7, D19). -/
def Obligations.DrawStopsAtFirstUndefinedRow : Prop :=
  ∀ (x y n : Index16) (s : State) (f : Fault), exec (.drw x y n) s = .fault f ↔
    ∃ k, k < n.val ∧
      (∀ j, j < k → memCell s.params.memOob (s.I.toNat + j) ≠ none ∧
        ¬ (s.params.drawEdge = .undefined ∧ s.RowOffGrid x y j)) ∧
      ((memCell s.params.memOob (s.I.toNat + k) = none ∧ f = .undefined .memOob) ∨
        (s.params.drawEdge = .undefined ∧ s.RowOffGrid x y k ∧ f = .undefined .drawOffscreen))

/-! ## Control flow -/

/-- O19. R141: RET with a legal, non-empty stack decrements SP and loads pc from the slot it then
names, which is not cleared; with SP = 0 it stops (decision D5, log 22). That it also stops on the
illegal SP above 16 is the model's choice (log 5). -/
def Obligations.ReturnPopsStack : Prop :=
  (∀ op : Word, op.extractLsb' 12 4 = 0x0#4 → op.extractLsb' 0 4 = 0xE#4 → decode op = .ret) ∧
  ∀ s : State,
    (∀ (_ : 1 ≤ s.SP.toNat) (_ : s.SP.toNat ≤ 16),
      exec .ret s = .next { s with SP := s.SP - 1#8, pc := s.stack[s.SP.toNat - 1] }) ∧
    (s.SP = 0#8 → exec .ret s = .fault (.undefined .stackUnderflow)) ∧
    (16 < s.SP.toNat → exec .ret s = .fault (.undefined .stackOverflow))

/-- O20. R143: CALL stores pc, which holds the call's address + 2, at stack[SP], increments SP and
jumps; with SP = 16 it stops (decision D5, log 22). That it also stops on the illegal SP above 16
is the model's choice (log 5). -/
def Obligations.CallPushesReturnAddress : Prop :=
  (∀ op : Word, op.extractLsb' 12 4 = 0x2#4 → decode op = .call (op.extractLsb' 0 12)) ∧
  ∀ (nnn : Addr12) (s : State),
    (∀ h : s.SP.toNat < 16, exec (.call nnn) s = .next { s with
      stack := s.stack.set s.SP.toNat s.pc, SP := s.SP + 1#8, pc := nnn.setWidth 16 }) ∧
    (16 ≤ s.SP.toNat → exec (.call nnn) s = .fault (.undefined .stackOverflow))

/-- O21. A return with the stack and SP that a call left resumes after the call, with SP as before
it (R141, R143, 10_state.md R26). -/
def Obligations.ReturnResumesAfterCall : Prop :=
  ∀ (nnn : Addr12) (s t u : State), exec (.call nnn) s = .next t → u.stack = t.stack →
    u.SP = t.SP → exec .ret u = .next { u with pc := s.pc, SP := s.SP }

/-- O22. R142: JP sets pc to the embedded address and changes nothing else. -/
def Obligations.JumpSetsProgramCounter : Prop :=
  (∀ op : Word, op.extractLsb' 12 4 = 0x1#4 → decode op = .jp (op.extractLsb' 0 12)) ∧
  ∀ (nnn : Addr12) (s : State), ∃ t, exec (.jp nnn) s = .next t ∧ t.pc.toNat = nnn.toNat ∧
    t = { s with pc := t.pc }

/-- O23. R144 to R147: the four skips add 2 to pc, modulo 65536, exactly when the comparison holds,
and change nothing else. -/
def Obligations.SkipsCompareAndAdvance : Prop :=
  (∀ op : Word, op.extractLsb' 12 4 = 0x3#4 →
    decode op = .seByte (op.extractLsb' 8 4).toFin (op.extractLsb' 0 8)) ∧
  (∀ op : Word, op.extractLsb' 12 4 = 0x4#4 →
    decode op = .sneByte (op.extractLsb' 8 4).toFin (op.extractLsb' 0 8)) ∧
  (∀ op : Word, op.extractLsb' 12 4 = 0x5#4 →
    decode op = .seReg (op.extractLsb' 8 4).toFin (op.extractLsb' 4 4).toFin) ∧
  (∀ op : Word, op.extractLsb' 12 4 = 0x9#4 →
    decode op = .sneReg (op.extractLsb' 8 4).toFin (op.extractLsb' 4 4).toFin) ∧
  ∀ (x y : Index16) (kk : Byte) (s : State),
    exec (.seByte x kk) s = .next (if s.getV x = kk then { s with pc := s.pc + 2#16 } else s) ∧
    exec (.sneByte x kk) s = .next (if s.getV x ≠ kk then { s with pc := s.pc + 2#16 } else s) ∧
    exec (.seReg x y) s =
      .next (if s.getV x = s.getV y then { s with pc := s.pc + 2#16 } else s) ∧
    exec (.sneReg x y) s =
      .next (if s.getV x ≠ s.getV y then { s with pc := s.pc + 2#16 } else s)

/-- O24. R148: jump-with-offset sets pc to the embedded address plus a register, without a wrap.
Under the default the register is Vx with x = op[11:8]; under `JUMP_OFFSET_REG = V0` it is V0
(decision D8, log 21). -/
def Obligations.JumpWithOffsetAddsRegister : Prop :=
  (∀ op : Word, op.extractLsb' 12 4 = 0xB#4 →
    decode op = .jpReg (op.extractLsb' 0 12) (op.extractLsb' 8 4).toFin) ∧
  ∀ (nnn : Addr12) (x : Index16) (s : State), ∃ t, exec (.jpReg nnn x) s = .next t ∧
    (s.params.jumpOffsetReg = .vx → t.pc.toNat = nnn.toNat + (s.getV x).toNat) ∧
    (s.params.jumpOffsetReg = .v0 → t.pc.toNat = nnn.toNat + (s.getV 0).toNat) ∧
    t = { s with pc := t.pc }

/-! ## Register arithmetic and logic -/

/-- O25. R161, R162: load-immediate and add-immediate write Vx and nothing else; the sum is
modulo 256 and no flag is written. -/
def Obligations.ImmediateFormsWriteVx : Prop :=
  (∀ op : Word, op.extractLsb' 12 4 = 0x6#4 →
    decode op = .ldByte (op.extractLsb' 8 4).toFin (op.extractLsb' 0 8)) ∧
  (∀ op : Word, op.extractLsb' 12 4 = 0x7#4 →
    decode op = .addByte (op.extractLsb' 8 4).toFin (op.extractLsb' 0 8)) ∧
  ∀ (x : Index16) (kk : Byte) (s : State),
    exec (.ldByte x kk) s = .next { s with V := s.V.set x.val kk } ∧
    ∃ r : Byte, exec (.addByte x kk) s = .next { s with V := s.V.set x.val r } ∧
      r.toNat = ((s.getV x).toNat + kk.toNat) % 256

/-- O26. R163 to R166: move, OR, AND and XOR write Vx and nothing else, VF only where it is the
destination. -/
def Obligations.RegisterLogicWritesVx : Prop :=
  (∀ op : Word, op.extractLsb' 12 4 = 0x8#4 →
    (op.extractLsb' 0 4 = 0x0#4 →
      decode op = .ldReg (op.extractLsb' 8 4).toFin (op.extractLsb' 4 4).toFin) ∧
    (op.extractLsb' 0 4 = 0x1#4 →
      decode op = .orReg (op.extractLsb' 8 4).toFin (op.extractLsb' 4 4).toFin) ∧
    (op.extractLsb' 0 4 = 0x2#4 →
      decode op = .andReg (op.extractLsb' 8 4).toFin (op.extractLsb' 4 4).toFin) ∧
    (op.extractLsb' 0 4 = 0x3#4 →
      decode op = .xorReg (op.extractLsb' 8 4).toFin (op.extractLsb' 4 4).toFin)) ∧
  ∀ (x y : Index16) (s : State),
    exec (.ldReg x y) s = .next { s with V := s.V.set x.val s.V[y.val] } ∧
    exec (.orReg x y) s = .next { s with V := s.V.set x.val (s.V[x.val] ||| s.V[y.val]) } ∧
    exec (.andReg x y) s = .next { s with V := s.V.set x.val (s.V[x.val] &&& s.V[y.val]) } ∧
    exec (.xorReg x y) s = .next { s with V := s.V.set x.val (s.V[x.val] ^^^ s.V[y.val]) }

/-- O27. R167: ADD Vx, Vy writes the sum modulo 256 to Vx and the carry to VF, both from the values
before it; for x = 0xF, VF ends as the carry under `flag_wins` and as the sum under `result_wins`
(decisions D2, D3; log 16). -/
def Obligations.AddRegistersWritesCarry : Prop :=
  (∀ op : Word, op.extractLsb' 12 4 = 0x8#4 → op.extractLsb' 0 4 = 0x4#4 →
    decode op = .addReg (op.extractLsb' 8 4).toFin (op.extractLsb' 4 4).toFin) ∧
  ∀ (x y : Index16) (s : State), ∃ t, exec (.addReg x y) s = .next t ∧
    (x ≠ VF → (t.getV x).toNat = ((s.getV x).toNat + (s.getV y).toNat) % 256) ∧
    (x ≠ VF ∨ s.params.vfAlias = .flagWins →
      (t.getV VF).toNat = if (s.getV x).toNat + (s.getV y).toNat > 255 then 1 else 0) ∧
    (x = VF → s.params.vfAlias = .resultWins →
      (t.getV VF).toNat = ((s.getV x).toNat + (s.getV y).toNat) % 256) ∧
    (∀ r, r ≠ x → r ≠ VF → t.getV r = s.getV r) ∧ t = { s with V := t.V }

/-- O28. R168: SUB Vx, Vy writes (Vx - Vy) mod 256 to Vx and to VF whether Vx > Vy, strictly; for
x = 0xF as `VF_ALIAS` says (decisions D2, D3; log 16). -/
def Obligations.SubtractWritesStrictComparison : Prop :=
  (∀ op : Word, op.extractLsb' 12 4 = 0x8#4 → op.extractLsb' 0 4 = 0x5#4 →
    decode op = .subReg (op.extractLsb' 8 4).toFin (op.extractLsb' 4 4).toFin) ∧
  ∀ (x y : Index16) (s : State), ∃ t, exec (.subReg x y) s = .next t ∧
    (x ≠ VF → ((t.getV x).toNat : Int) = (((s.getV x).toNat : Int) - (s.getV y).toNat) % 256) ∧
    (x ≠ VF ∨ s.params.vfAlias = .flagWins →
      (t.getV VF).toNat = if (s.getV x).toNat > (s.getV y).toNat then 1 else 0) ∧
    (x = VF → s.params.vfAlias = .resultWins →
      ((t.getV VF).toNat : Int) = (((s.getV x).toNat : Int) - (s.getV y).toNat) % 256) ∧
    (∀ r, r ≠ x → r ≠ VF → t.getV r = s.getV r) ∧ t = { s with V := t.V }

/-- O29. R169: SHR Vx, Vy writes Vy >> 1 to Vx and bit 0 of Vy to VF; for x = 0xF as `VF_ALIAS`
says (decisions D2, D3; log 16). -/
def Obligations.ShiftRightShiftsVy : Prop :=
  (∀ op : Word, op.extractLsb' 12 4 = 0x8#4 → op.extractLsb' 0 4 = 0x6#4 →
    decode op = .shr (op.extractLsb' 8 4).toFin (op.extractLsb' 4 4).toFin) ∧
  ∀ (x y : Index16) (s : State), ∃ t, exec (.shr x y) s = .next t ∧
    (x ≠ VF → (t.getV x).toNat = (s.getV y).toNat / 2) ∧
    (x ≠ VF ∨ s.params.vfAlias = .flagWins → (t.getV VF).toNat = (s.getV y).toNat % 2) ∧
    (x = VF → s.params.vfAlias = .resultWins → (t.getV VF).toNat = (s.getV y).toNat / 2) ∧
    (∀ r, r ≠ x → r ≠ VF → t.getV r = s.getV r) ∧ t = { s with V := t.V }

/-- O30. R170: SUBN Vx, Vy writes (Vy - Vx) mod 256 to Vx and to VF whether Vy > Vx, strictly; for
x = 0xF as `VF_ALIAS` says (decisions D2, D3; log 16). -/
def Obligations.ReversedSubtractWritesStrictComparison : Prop :=
  (∀ op : Word, op.extractLsb' 12 4 = 0x8#4 → op.extractLsb' 0 4 = 0x7#4 →
    decode op = .subn (op.extractLsb' 8 4).toFin (op.extractLsb' 4 4).toFin) ∧
  ∀ (x y : Index16) (s : State), ∃ t, exec (.subn x y) s = .next t ∧
    (x ≠ VF → ((t.getV x).toNat : Int) = (((s.getV y).toNat : Int) - (s.getV x).toNat) % 256) ∧
    (x ≠ VF ∨ s.params.vfAlias = .flagWins →
      (t.getV VF).toNat = if (s.getV y).toNat > (s.getV x).toNat then 1 else 0) ∧
    (x = VF → s.params.vfAlias = .resultWins →
      ((t.getV VF).toNat : Int) = (((s.getV y).toNat : Int) - (s.getV x).toNat) % 256) ∧
    (∀ r, r ≠ x → r ≠ VF → t.getV r = s.getV r) ∧ t = { s with V := t.V }

/-- O31. R171: SHL Vx, Vy writes (Vy << 1) mod 256 to Vx and bit 7 of Vy to VF; for x = 0xF as
`VF_ALIAS` says (decisions D2, D3; log 16). -/
def Obligations.ShiftLeftShiftsVy : Prop :=
  (∀ op : Word, op.extractLsb' 12 4 = 0x8#4 → op.extractLsb' 0 4 = 0xE#4 →
    decode op = .shl (op.extractLsb' 8 4).toFin (op.extractLsb' 4 4).toFin) ∧
  ∀ (x y : Index16) (s : State), ∃ t, exec (.shl x y) s = .next t ∧
    (x ≠ VF → (t.getV x).toNat = 2 * (s.getV y).toNat % 256) ∧
    (x ≠ VF ∨ s.params.vfAlias = .flagWins → (t.getV VF).toNat = (s.getV y).toNat / 128) ∧
    (x = VF → s.params.vfAlias = .resultWins →
      (t.getV VF).toNat = 2 * (s.getV y).toNat % 256) ∧
    (∀ r, r ≠ x → r ≠ VF → t.getV r = s.getV r) ∧ t = { s with V := t.V }

/-- O32. R172: RND writes the AND of the cycle's random byte and the immediate to Vx. The byte is
the one at the random input port, or a free value where none is lined up (log 2); either way it is
taken, and nothing else changes. -/
def Obligations.RandomAndMasksFreeByte : Prop :=
  (∀ op : Word, op.extractLsb' 12 4 = 0xC#4 →
    decode op = .rnd (op.extractLsb' 8 4).toFin (op.extractLsb' 0 8)) ∧
  ∀ (x : Index16) (kk : Byte) (s : State),
    (∀ r rest, s.rnd = r :: rest →
      exec (.rnd x kk) s = .next { s with V := s.V.set x.val (r &&& kk), rnd := rest }) ∧
    (s.rnd = [] → exec (.rnd x kk) s = .next { s with
      V := s.V.set x.val (Config.randomByte s.rndCount &&& kk), rndCount := s.rndCount + 1 })

/-! ## Index register and memory instructions -/

/-- O33. R180, R181: set-index writes the embedded address to I, add-to-index adds Vx to I modulo
65536 without a flag; nothing else changes. -/
def Obligations.IndexSetAndAdd : Prop :=
  (∀ op : Word, op.extractLsb' 12 4 = 0xA#4 → decode op = .ldI (op.extractLsb' 0 12)) ∧
  (∀ op : Word, op.extractLsb' 12 4 = 0xF#4 → op.extractLsb' 0 8 = 0x1E#8 →
    decode op = .addI (op.extractLsb' 8 4).toFin) ∧
  ∀ (nnn : Addr12) (x : Index16) (s : State),
    (∃ t, exec (.ldI nnn) s = .next t ∧ t.I.toNat = nnn.toNat ∧ t = { s with I := t.I }) ∧
    ∃ t, exec (.addI x) s = .next t ∧ t.I.toNat = (s.I.toNat + (s.getV x).toNat) % 65536 ∧
      t = { s with I := t.I }

/-- O34. R182: font-character-address writes 0x050 + 5 × Vx to I, the full eight bits of Vx used
(decision D24, log 24), without a wrap; memory is not accessed and nothing else changes. -/
def Obligations.FontAddressPointsToGlyph : Prop :=
  (∀ op : Word, op.extractLsb' 12 4 = 0xF#4 → op.extractLsb' 0 8 = 0x29#8 →
    decode op = .ldF (op.extractLsb' 8 4).toFin) ∧
  ∀ (x : Index16) (s : State), ∃ t, exec (.ldF x) s = .next t ∧
    t.I.toNat = 0x050 + 5 * (s.getV x).toNat ∧ t = { s with I := t.I }

/-- O35. R183: BCD-decompose stores the hundreds, tens and units of Vx at I, I + 1 and I + 2; no
other cell and nothing else changes, I included (decision D9, log 17). -/
def Obligations.BcdStoresDecimalDigits : Prop :=
  (∀ op : Word, op.extractLsb' 12 4 = 0xF#4 → op.extractLsb' 0 8 = 0x33#8 →
    decode op = .ldB (op.extractLsb' 8 4).toFin) ∧
  ∀ (x : Index16) (s : State), s.mem.wf = true → s.Accessible s.I.toNat 3 →
    ∃ t, exec (.ldB x) s = .next t ∧ t = { s with mem := t.mem } ∧
      (∀ c, memCell s.params.memOob s.I.toNat = some c →
        (t.mem.read c).toNat = (s.getV x).toNat / 100) ∧
      (∀ c, memCell s.params.memOob (s.I.toNat + 1) = some c →
        (t.mem.read c).toNat = (s.getV x).toNat / 10 % 10) ∧
      (∀ c, memCell s.params.memOob (s.I.toNat + 2) = some c →
        (t.mem.read c).toNat = (s.getV x).toNat % 10) ∧
      ∀ c, ¬ s.Reaches s.I.toNat 3 c → t.mem.read c = s.mem.read c

/-- O36. R184: register-dump stores V0 to Vx, inclusive, at I, I + 1, ..., I + x; no other cell and
nothing else changes, I included (decision D9, log 17). -/
def Obligations.DumpStoresRegisters : Prop :=
  (∀ op : Word, op.extractLsb' 12 4 = 0xF#4 → op.extractLsb' 0 8 = 0x55#8 →
    decode op = .dump (op.extractLsb' 8 4).toFin) ∧
  ∀ (x : Index16) (s : State), s.mem.wf = true → s.Accessible s.I.toNat (x.val + 1) →
    ∃ t, exec (.dump x) s = .next t ∧ t = { s with mem := t.mem } ∧
      (∀ (r : Index16) (c : Nat), r ≤ x → memCell s.params.memOob (s.I.toNat + r.val) = some c →
        t.mem.read c = s.getV r) ∧
      ∀ c, ¬ s.Reaches s.I.toNat (x.val + 1) c → t.mem.read c = s.mem.read c

/-- O37. R185: register-load reads V0 to Vx, inclusive, from I, I + 1, ..., I + x; the registers
above Vx and everything else are unchanged, I included (decision D9, log 17). -/
def Obligations.LoadReadsRegisters : Prop :=
  (∀ op : Word, op.extractLsb' 12 4 = 0xF#4 → op.extractLsb' 0 8 = 0x65#8 →
    decode op = .load (op.extractLsb' 8 4).toFin) ∧
  ∀ (x : Index16) (s : State), s.Accessible s.I.toNat (x.val + 1) →
    ∃ t, exec (.load x) s = .next t ∧ t = { s with V := t.V } ∧
      (∀ (r : Index16) (c : Nat), r ≤ x → memCell s.params.memOob (s.I.toNat + r.val) = some c →
        t.getV r = s.mem.read c) ∧
      ∀ r : Index16, x < r → t.getV r = s.getV r

/-- O38. BCD-decompose, register-dump and register-load with an address outside memory stop with
`MEM_OOB` (R183, R184, R185, 20_memory.md R52; decision D4, log 18). -/
def Obligations.MemoryInstructionsStopOutsideMemory : Prop :=
  ∀ (x : Index16) (s : State),
    (¬ s.Accessible s.I.toNat 3 → exec (.ldB x) s = .fault (.undefined .memOob)) ∧
    (¬ s.Accessible s.I.toNat (x.val + 1) →
      exec (.dump x) s = .fault (.undefined .memOob) ∧
      exec (.load x) s = .fault (.undefined .memOob))

/-- O39. R186, the round-trip law: a register-load that finds the I and the memory cells a
register-dump left restores the dumped registers, whatever happened to the registers between. -/
def Obligations.DumpThenLoadRestoresRegisters : Prop :=
  ∀ (x : Index16) (s t u : State), s.mem.wf = true → exec (.dump x) s = .next t →
    u.I = t.I → u.params = t.params →
    (∀ c, s.Reaches s.I.toNat (x.val + 1) c → u.mem.read c = t.mem.read c) →
    ∃ w, exec (.load x) u = .next w ∧ (∀ r : Index16, r ≤ x → w.getV r = s.getV r) ∧
      w = { u with V := w.V }

/-- O40. R65: bytes stored by a register-dump are what a later fetch from their addresses reads. -/
def Obligations.DumpedBytesAreFetched : Prop :=
  ∀ (x : Index16) (s t u : State) (r : Index16), s.mem.wf = true →
    exec (.dump x) s = .next t → u.mem = t.mem → u.params = t.params → r < x →
    u.pc.toNat = s.I.toNat + r.val →
    fetch u = .ok (s.getV r ++ s.V.getD (r.val + 1) 0#8)

/-! ## Keypad and timers -/

/-- O41. R201, R202: a key skip adds 2 to pc exactly when the key numbered Vx is pressed, or not
pressed, and changes nothing else. For Vx ≥ 16 the low nibble counts under
`KEY_OOB = low_nibble`, and under `undefined` it stops (decision D6, log 19). -/
def Obligations.KeySkipsTestOneKey : Prop :=
  (∀ op : Word, op.extractLsb' 12 4 = 0xE#4 →
    (op.extractLsb' 0 4 = 0xE#4 → decode op = .skp (op.extractLsb' 8 4).toFin) ∧
    (op.extractLsb' 0 4 = 0x1#4 → decode op = .sknp (op.extractLsb' 8 4).toFin)) ∧
  ∀ (x : Index16) (s : State),
    (∀ k : Index16, ((s.getV x).toNat < 16 ∧ k.val = (s.getV x).toNat) ∨
        (16 ≤ (s.getV x).toNat ∧ s.params.keyOob = .lowNibble ∧ k.val = (s.getV x).toNat % 16) →
      exec (.skp x) s =
        .next (if s.key[k.val] = true then { s with pc := s.pc + 2#16 } else s) ∧
      exec (.sknp x) s =
        .next (if s.key[k.val] = false then { s with pc := s.pc + 2#16 } else s)) ∧
    (16 ≤ (s.getV x).toNat → s.params.keyOob = .undefined →
      exec (.skp x) s = .fault (.undefined .keyOob) ∧
      exec (.sknp x) s = .fault (.undefined .keyOob))

/-- O42. R204: wait-for-key writes the number of the lowest pressed key to Vx; with no key pressed
it takes 2 from pc, modulo 65536; nothing else changes. -/
def Obligations.WaitForKeyTakesLowestKey : Prop :=
  (∀ op : Word, op.extractLsb' 12 4 = 0xF#4 → op.extractLsb' 0 8 = 0x0A#8 →
    decode op = .ldVxK (op.extractLsb' 8 4).toFin) ∧
  ∀ (x : Index16) (s : State),
    (∀ k : Index16, s.key[k.val] = true → (∀ j : Index16, j < k → s.key[j.val] = false) →
      exec (.ldVxK x) s = .next { s with V := s.V.set x.val (BitVec.ofNat 8 k.val) }) ∧
    ((∀ k : Index16, s.key[k.val] = false) →
      exec (.ldVxK x) s = .next { s with pc := s.pc - 2#16 })

/-- O43. R203, R205, R206: the three timer transfers, and what the decay of the same cycle leaves
after each. -/
def Obligations.TimerTransfersBeforeDecay : Prop :=
  (∀ op : Word, op.extractLsb' 12 4 = 0xF#4 →
    (op.extractLsb' 0 8 = 0x07#8 → decode op = .ldVxDt (op.extractLsb' 8 4).toFin) ∧
    (op.extractLsb' 0 8 = 0x15#8 → decode op = .ldDtVx (op.extractLsb' 8 4).toFin) ∧
    (op.extractLsb' 0 8 = 0x18#8 → decode op = .ldStVx (op.extractLsb' 8 4).toFin)) ∧
  ∀ (x : Index16) (s : State),
    exec (.ldVxDt x) s = .next { s with V := s.V.set x.val s.DT } ∧
    exec (.ldDtVx x) s = .next { s with DT := s.V[x.val] } ∧
    exec (.ldStVx x) s = .next { s with ST := s.V[x.val] } ∧
    (∃ t, decayAfter (exec (.ldVxDt x) s) = .next t ∧ t.getV x = s.DT ∧
      t.DT.toNat = s.DT.toNat - 1 ∧ t.ST.toNat = s.ST.toNat - 1) ∧
    (∃ t, decayAfter (exec (.ldDtVx x) s) = .next t ∧ t.DT.toNat = (s.getV x).toNat - 1 ∧
      t.ST.toNat = s.ST.toNat - 1) ∧
    ∃ t, decayAfter (exec (.ldStVx x) s) = .next t ∧ t.ST.toNat = (s.getV x).toNat - 1 ∧
      t.DT.toNat = s.DT.toNat - 1

/-- O44. 10_state.md R27, R28: a completed cycle decrements each timer by exactly 1 if it is
non-zero, and never below 0, unless it executes the instruction that sets that timer. -/
def Obligations.TimersDecayOncePerCycle : Prop :=
  ∀ (s t : State) (op : Word), fetch s = .ok op → step s = .next t →
    ((∀ x, decode op ≠ .ldDtVx x) → t.DT.toNat = s.DT.toNat - 1) ∧
    ((∀ x, decode op ≠ .ldStVx x) → t.ST.toNat = s.ST.toNat - 1)

/-- O45. 45_keys_timers.md R207: a timer that `Fx15` or `Fx18` writes with v holds max(v - 1 - j, 0)
at the end of the j-th cycle after it, if none of these writes it again. The cycles follow one
another with no move of the host between them. -/
def Obligations.TimerCountsDownAcrossCycles : Prop :=
  ∀ (s t u : State) (op : Word) (x : Index16) (j : Nat), fetch s = .ok op → step s = .next t →
    (decode op = .ldDtVx x → Cycles (fun i => ∀ y, i ≠ .ldDtVx y) j t u →
      u.DT.toNat = (s.getV x).toNat - 1 - j) ∧
    (decode op = .ldStVx x → Cycles (fun i => ∀ y, i ≠ .ldStVx y) j t u →
      u.ST.toNat = (s.getV x).toNat - 1 - j)

/-- O46. 70_reset_and_hazards.md R264: from a jump to itself, any number of cycles completes and
changes nothing but the timers, which decay once in each. -/
def Obligations.JumpToSelfOnlyDecaysTimers : Prop :=
  ∀ (s : State) (a : Addr12) (k : Nat), s.undef = none → s.pc = a.setWidth 16 →
    fetch s = .ok (0x1#4 ++ a) →
    ∃ t, Sys2Proof.core.run k s = .next t ∧ t.DT.toNat = s.DT.toNat - k ∧
      t.ST.toNat = s.ST.toNat - k ∧ t = { s with DT := t.DT, ST := t.ST }

/-! ## What only some instructions change -/

/-- O47. 10_state.md R25, R26: the stack and SP change only by call and return; a return leaves every
slot as it was, a call all but the one it pushes to. -/
def Obligations.StackChangesOnlyByCallAndReturn : Prop :=
  ∀ (i : Instr) (s t : State), exec i s = .next t →
    ((∀ nnn, i ≠ .call nnn) → t.stack = s.stack) ∧
    ((∀ nnn, i ≠ .call nnn) → i ≠ .ret → t.SP = s.SP) ∧
    (∀ nnn, i = .call nnn → ∀ k : Fin 16, k.val ≠ s.SP.toNat → t.stack[k.val] = s.stack[k.val])

/-- O48. 10_state.md R30: the framebuffer changes only by CLS and DRW. -/
def Obligations.FramebufferChangesOnlyByClearAndDraw : Prop :=
  ∀ (i : Instr) (s t : State), exec i s = .next t → i ≠ .cls → (∀ x y n, i ≠ .drw x y n) →
    t.fb = s.fb

/-- O49. 20_memory.md R51, R67: a cycle that executes neither BCD-decompose nor register-dump leaves
every byte of memory; one that does changes only the cells of the addresses it stores to. -/
def Obligations.MemoryChangesOnlyByStores : Prop :=
  ∀ (s t : State) (op : Word), s.mem.wf = true → fetch s = .ok op → step s = .next t →
    ((∀ x, decode op ≠ .ldB x) → (∀ x, decode op ≠ .dump x) →
      ∀ a, t.mem.read a = s.mem.read a) ∧
    (∀ x, decode op = .ldB x → ∀ a, ¬ s.Reaches s.I.toNat 3 a → t.mem.read a = s.mem.read a) ∧
    (∀ x, decode op = .dump x → ∀ a, ¬ s.Reaches s.I.toNat (x.val + 1) a →
      t.mem.read a = s.mem.read a)

/-- O50. 10_state.md R23: I changes only by set-index, add-to-index and font-character-address; in
particular not by Dxyn, Fx33, Fx55 and Fx65 (decision D9, log 17). -/
def Obligations.IndexChangesOnlyByThreeInstructions : Prop :=
  ∀ (i : Instr) (s t : State), exec i s = .next t → (∀ nnn, i ≠ .ldI nnn) →
    (∀ x, i ≠ .addI x) → (∀ x, i ≠ .ldF x) → t.I = s.I

/-- O51. 10_state.md R22, R21: an instruction changes no register but those the table of R22 lists
for it; VF in particular survives every instruction that neither writes it as a flag nor names it
as its destination. -/
def Obligations.RegistersChangeOnlyAsTabled : Prop :=
  ∀ (i : Instr) (s t : State) (r : Index16), exec i s = .next t → ¬ i.mayWrite r →
    t.getV r = s.getV r

/-- O52. 10_state.md R24: an instruction outside R24's list leaves pc at its own address + 2. -/
def Obligations.ProgramCounterOtherwiseAdvances : Prop :=
  ∀ (s t : State) (op : Word), fetch s = .ok op → step s = .next t →
    (decode op).writesPc = false → t.pc = s.pc + 2#16

/-- O53. 10_state.md R29, R38, R39: a cycle never writes the keypad, the parameters or the mark of an
undefined outcome; the random input changes only by RND. That the parameters stand in State is the
model's choice (log 1), and so is the clause on `rnd` and `rndCount`: a queue whose untaken byte
waits for the next RND (log 2), where R119 gives each cycle a free input. -/
def Obligations.CycleLeavesHostStateAlone : Prop :=
  ∀ (s t : State) (op : Word), fetch s = .ok op → step s = .next t →
    t.key = s.key ∧ t.params = s.params ∧ t.undef = none ∧
    ((∀ x kk, decode op ≠ .rnd x kk) → t.rnd = s.rnd ∧ t.rndCount = s.rndCount)

/-! ## When a cycle completes -/

/-- O54. 60_exceptions.md R220, R221: an instruction completes exactly when it reaches no case of the
list of undefined outcomes, and none is ever refused (decision D19, log 3). -/
def Obligations.InstructionCompletesExactlyWhenDefined : Prop :=
  ∀ (i : Instr) (s : State), ((∃ t, exec i s = .next t) ↔ s.Defined i) ∧
    ∀ r, exec i s ≠ .refused r

/-- O55. 40_cycle.md R121, 60_exceptions.md R221: from a state with a legal stack pointer and no
mark, a cycle that stops does so with one of the five reasons, and has reached the case that R221
lists for it: `MEM_OOB` in the fetch, or in DRW, BCD-decompose, register-dump or register-load with
an address outside memory; `STACK_OVERFLOW` in CALL with SP = 16; `STACK_UNDERFLOW` in RET with
SP = 0; `KEY_OOB` in a key skip with Vx ≥ 16; `DRAW_OFFSCREEN` in DRW with a set bit off the grid
(decision D19, log 3). -/
def Obligations.CycleStopsOnlyForListedReasons : Prop :=
  ∀ (s : State) (f : Fault), s.undef = none → s.SP.toNat ≤ 16 → step s = .fault f →
    (f = .undefined .memOob ∧ s.params.memOob = .undefined ∧ 0xFFF ≤ s.pc.toNat) ∨
    ∃ op, fetch s = .ok op ∧
      ((f = .undefined .memOob ∧ s.params.memOob = .undefined ∧
        ((∃ x y n, decode op = .drw x y n ∧ ¬ s.Accessible s.I.toNat n.val) ∨
         (∃ x, decode op = .ldB x ∧ ¬ s.Accessible s.I.toNat 3) ∨
         ∃ x, (decode op = .dump x ∨ decode op = .load x) ∧
           ¬ s.Accessible s.I.toNat (x.val + 1))) ∨
       (f = .undefined .stackOverflow ∧ s.SP.toNat = 16 ∧ ∃ nnn, decode op = .call nnn) ∨
       (f = .undefined .stackUnderflow ∧ s.SP.toNat = 0 ∧ decode op = .ret) ∨
       (f = .undefined .keyOob ∧ s.params.keyOob = .undefined ∧
         ∃ x, (decode op = .skp x ∨ decode op = .sknp x) ∧ 16 ≤ (s.getV x).toNat) ∨
       (f = .undefined .drawOffscreen ∧ s.params.drawEdge = .undefined ∧
         ∃ x y n, decode op = .drw x y n ∧ ∃ r, r < n.val ∧ s.RowOffGrid x y r))

/-- O56. 10_state.md R38, 40_cycle.md R121: an undefined outcome sets the mark, a marked state takes
no cycle, and no move of the host ever clears or changes the mark (decision D19, log 3, 4). -/
def Obligations.UndefinedMarkIsSticky : Prop :=
  (∀ (s : State) (r : Reason), step s = .fault (.undefined r) → s.cycle.undef = some r) ∧
  (∀ (s : State) (r : Reason), s.undef = some r →
    step s = .fault (.stuck r) ∧ s.cycle = s) ∧
  ∀ (s : State) (r : Reason) (moves : List HostMove), s.undef = some r →
    (s.runHost moves).undef = some r

/-! ## The host's side -/

/-- O57. 70_reset_and_hazards.md R252: the ROM load puts byte j of the image at 0x200 + j and changes
no other byte and nothing else; an unreadable file changes nothing; an image longer than 3584
bytes is refused (decision D21, log 25). -/
def Obligations.RomLoadCopiesImage : Prop :=
  ∀ (s : State) (image : List Byte), s.loadRom none = .next s ∧
    (s.mem.wf = true → image.length ≤ 3584 →
      ∃ t, s.loadRom (some image) = .next t ∧ t = { s with mem := t.mem } ∧ t.mem.wf = true ∧
        (∀ (j : Nat) (h : j < image.length), t.mem.read (0x200 + j) = image[j]) ∧
        ∀ a, (a < 0x200 ∨ 0x200 + image.length ≤ a) → t.mem.read a = s.mem.read a) ∧
    (3584 < image.length → s.loadRom (some image) = .refused .romTooLong)

/-- O58. 70_reset_and_hazards.md R253, 20_memory.md R53 to R55: what a launch leaves, for any
parameters, font, image and keypad (decision D21, log 6, 25). -/
def Obligations.LaunchBuildsInitialState : Prop :=
  ∀ (params : Params) (font : Vector Byte 80) (image : List Byte) (key : Keypad),
    image.length ≤ 3584 →
    ∃ s, launch params font image key = .next s ∧
      s = { State.reset with mem := s.mem, params := params, key := key } ∧ s.Inv ∧
      (∀ (j : Nat) (h : j < 80), s.mem.read (0x050 + j) = font[j]) ∧
      (∀ (j : Nat) (h : j < image.length), s.mem.read (0x200 + j) = image[j]) ∧
      ∀ a, (a < 0x050 ∨ (0x0A0 ≤ a ∧ a < 0x200) ∨ 0x200 + image.length ≤ a) →
        s.mem.read a = 0x00#8

/-- O59. 10_state.md R31, R32, 60_exceptions.md R229: the video port shows pixel (col, row) in cell
row × 64 + col (decision D13, log 26) as all ones or zero, and the sound output is on exactly while
ST is non-zero. -/
def Obligations.VideoAndSoundPortsShowState : Prop :=
  ∀ (s : State) (col : Fin 64) (row : Fin 32),
    (∀ cell : Fin 2048, cell.val = row.val * 64 + col.val →
      s.video cell = if s.fb.pixel col row = true then 0xFFFFFFFF#32 else 0x00000000#32) ∧
    (s.sound = true ↔ s.ST.toNat ≠ 0)
end

