-- ==== Sys2Proof/Laws/Decode.lean ====
section
/-!
SUPPORT. What the fields of an opcode are as numbers, what they are of an assembled opcode
(30_encoding.md R81, R83), and what two bytes in memory order combine to (20_memory.md R56).
-/

namespace Sys2Proof

theorem toNat_append_eq {m n : Nat} (a : BitVec m) (b : BitVec n) :
    (a ++ b).toNat = a.toNat * 2 ^ n + b.toNat := by
  rw [BitVec.toNat_append, ← Nat.shiftLeft_add_eq_or_of_lt b.isLt, Nat.shiftLeft_eq]

/-! ## Fields as numbers -/

theorem toNat_topNibble (op : Word) : (topNibble op).toNat = op.toNat / 4096 := by
  have := op.isLt
  simp only [topNibble, BitVec.extractLsb'_toNat, Nat.shiftRight_eq_div_pow]
  omega

theorem toNat_lowNibble (op : Word) : (lowNibble op).toNat = op.toNat % 16 := by
  simp [lowNibble]

theorem toNat_kkField (op : Word) : (kkField op).toNat = op.toNat % 256 := by
  simp [kkField]

theorem toNat_nnnField (op : Word) : (nnnField op).toNat = op.toNat % 4096 := by
  simp [nnnField]

theorem val_xField (op : Word) : (xField op).val = op.toNat / 256 % 16 := by
  have : (xField op).val = (op.extractLsb' 8 4).toNat := rfl
  rw [this, BitVec.extractLsb'_toNat, Nat.shiftRight_eq_div_pow]

theorem val_yField (op : Word) : (yField op).val = op.toNat / 16 % 16 := by
  have : (yField op).val = (op.extractLsb' 4 4).toNat := rfl
  rw [this, BitVec.extractLsb'_toNat, Nat.shiftRight_eq_div_pow]

theorem val_nField (op : Word) : (nField op).val = op.toNat % 16 := by
  have : (nField op).val = (op.extractLsb' 0 4).toNat := rfl
  rw [this, BitVec.extractLsb'_toNat, Nat.shiftRight_eq_div_pow]
  simp

/-! ## Assembled opcodes as numbers -/

theorem toNat_encodeA (top : BitVec 4) (nnn : Addr12) :
    (encodeA top nnn).toNat = top.toNat * 4096 + nnn.toNat := toNat_append_eq top nnn

theorem toNat_encodeXK (top : BitVec 4) (x : Index16) (kk : Byte) :
    (encodeXK top x kk).toNat = top.toNat * 4096 + x.val * 256 + kk.toNat := by
  have h : (encodeXK top x kk).toNat = ((top ++ nibble x) ++ kk).toNat := rfl
  rw [h, toNat_append_eq, toNat_append_eq, show (nibble x).toNat = x.val from rfl]
  omega

theorem toNat_encodeXY (top : BitVec 4) (x y : Index16) (low : BitVec 4) :
    (encodeXY top x y low).toNat =
      top.toNat * 4096 + x.val * 256 + y.val * 16 + low.toNat := by
  have h : (encodeXY top x y low).toNat = (((top ++ nibble x) ++ nibble y) ++ low).toNat := rfl
  rw [h, toNat_append_eq, toNat_append_eq, toNat_append_eq, show (nibble x).toNat = x.val from rfl,
    show (nibble y).toNat = y.val from rfl]
  omega

/-! ## Fields of assembled opcodes -/

@[simp] theorem topNibble_encodeA (top : BitVec 4) (nnn : Addr12) :
    topNibble (encodeA top nnn) = top := by
  apply BitVec.eq_of_toNat_eq
  rw [toNat_topNibble, toNat_encodeA]
  omega

@[simp] theorem nnnField_encodeA (top : BitVec 4) (nnn : Addr12) :
    nnnField (encodeA top nnn) = nnn := by
  apply BitVec.eq_of_toNat_eq
  rw [toNat_nnnField, toNat_encodeA]
  omega

theorem lowNibble_encodeA (top : BitVec 4) (nnn : Addr12) :
    lowNibble (encodeA top nnn) = nnn.extractLsb' 0 4 := by
  apply BitVec.eq_of_toNat_eq
  rw [toNat_lowNibble, toNat_encodeA]
  simp
  omega

theorem kkField_encodeA (top : BitVec 4) (nnn : Addr12) :
    kkField (encodeA top nnn) = nnn.extractLsb' 0 8 := by
  apply BitVec.eq_of_toNat_eq
  rw [toNat_kkField, toNat_encodeA]
  simp
  omega

theorem xField_encodeA (top : BitVec 4) (nnn : Addr12) :
    xField (encodeA top nnn) = (nnn.extractLsb' 8 4).toFin := by
  apply Fin.ext
  have h : ((nnn.extractLsb' 8 4).toFin).val = (nnn.extractLsb' 8 4).toNat := rfl
  rw [val_xField, toNat_encodeA, h, BitVec.extractLsb'_toNat, Nat.shiftRight_eq_div_pow]
  omega

@[simp] theorem topNibble_encodeXK (top : BitVec 4) (x : Index16) (kk : Byte) :
    topNibble (encodeXK top x kk) = top := by
  apply BitVec.eq_of_toNat_eq
  rw [toNat_topNibble, toNat_encodeXK]
  omega

@[simp] theorem xField_encodeXK (top : BitVec 4) (x : Index16) (kk : Byte) :
    xField (encodeXK top x kk) = x := by
  apply Fin.ext
  rw [val_xField, toNat_encodeXK]
  omega

@[simp] theorem kkField_encodeXK (top : BitVec 4) (x : Index16) (kk : Byte) :
    kkField (encodeXK top x kk) = kk := by
  apply BitVec.eq_of_toNat_eq
  rw [toNat_kkField, toNat_encodeXK]
  omega

theorem lowNibble_encodeXK (top : BitVec 4) (x : Index16) (kk : Byte) :
    lowNibble (encodeXK top x kk) = kk.extractLsb' 0 4 := by
  apply BitVec.eq_of_toNat_eq
  rw [toNat_lowNibble, toNat_encodeXK]
  simp
  omega

@[simp] theorem topNibble_encodeXY (top : BitVec 4) (x y : Index16) (low : BitVec 4) :
    topNibble (encodeXY top x y low) = top := by
  apply BitVec.eq_of_toNat_eq
  rw [toNat_topNibble, toNat_encodeXY]
  omega

@[simp] theorem xField_encodeXY (top : BitVec 4) (x y : Index16) (low : BitVec 4) :
    xField (encodeXY top x y low) = x := by
  apply Fin.ext
  rw [val_xField, toNat_encodeXY]
  omega

@[simp] theorem yField_encodeXY (top : BitVec 4) (x y : Index16) (low : BitVec 4) :
    yField (encodeXY top x y low) = y := by
  apply Fin.ext
  rw [val_yField, toNat_encodeXY]
  omega

@[simp] theorem lowNibble_encodeXY (top : BitVec 4) (x y : Index16) (low : BitVec 4) :
    lowNibble (encodeXY top x y low) = low := by
  apply BitVec.eq_of_toNat_eq
  rw [toNat_lowNibble, toNat_encodeXY]
  omega

@[simp] theorem nField_encodeXY (top : BitVec 4) (x y : Index16) (low : BitVec 4) :
    nField (encodeXY top x y low) = low.toFin := by
  apply Fin.ext
  have h : (low.toFin).val = low.toNat := rfl
  rw [val_nField, toNat_encodeXY, h]
  omega

/-! ## Which decoder an opcode reaches -/

theorem topNibble_eq_F {op : Word} (h : ∀ k : Fin 15, topNibble op ≠ BitVec.ofNat 4 k.val) :
    topNibble op = 0xF#4 := by
  revert h
  generalize topNibble op = t
  revert t
  decide

theorem decode_family0 {op : Word} (h : topNibble op = 0x0#4) : decode op = decodeFamily0 op := by
  simp [decode, h]

theorem decode_family8 {op : Word} (h : topNibble op = 0x8#4) : decode op = decodeFamily8 op := by
  simp [decode, h]

theorem decode_familyE {op : Word} (h : topNibble op = 0xE#4) : decode op = decodeFamilyE op := by
  simp [decode, h]

theorem decode_familyF {op : Word} (h : topNibble op = 0xF#4) : decode op = decodeFamilyF op := by
  simp [decode, h]

/-! ## The masks of the opcode table (30_encoding.md R94) -/

theorem getLsbD_encodeA (top : BitVec 4) (nnn : Addr12) (i : Nat) :
    (encodeA top nnn).getLsbD i = if i < 12 then nnn.getLsbD i else top.getLsbD (i - 12) := by
  have h : (encodeA top nnn).getLsbD i = (top ++ nnn).getLsbD i := rfl
  rw [h, BitVec.getLsbD_append]

theorem encodeXK_eq_encodeA (top : BitVec 4) (x : Index16) (kk : Byte) :
    encodeXK top x kk = encodeA top (nibble x ++ kk) := by
  apply BitVec.eq_of_toNat_eq
  rw [toNat_encodeA, toNat_encodeXK, toNat_append_eq, show (nibble x).toNat = x.val from rfl]
  omega

theorem encodeXY_eq_encodeA (top : BitVec 4) (x y : Index16) (low : BitVec 4) :
    encodeXY top x y low = encodeA top (nibble x ++ (nibble y ++ low)) := by
  apply BitVec.eq_of_toNat_eq
  rw [toNat_encodeA, toNat_encodeXY, toNat_append_eq, toNat_append_eq,
    show (nibble x).toNat = x.val from rfl, show (nibble y).toNat = y.val from rfl]
  omega

theorem mask_F000 (op : Word) : op &&& 0xF000#16 = encodeA (topNibble op) 0#12 := by
  apply BitVec.eq_of_getLsbD_eq
  intro i hi
  rw [getLsbD_encodeA]
  unfold topNibble
  interval_cases i <;> simp

theorem mask_F00F (op : Word) :
    op &&& 0xF00F#16 = encodeXY (topNibble op) 0 0 (lowNibble op) := by
  apply BitVec.eq_of_getLsbD_eq
  intro i hi
  rw [encodeXY_eq_encodeA, getLsbD_encodeA, BitVec.getLsbD_append, BitVec.getLsbD_append]
  unfold topNibble lowNibble
  interval_cases i <;> simp [nibble]

theorem mask_F0FF (op : Word) : op &&& 0xF0FF#16 = encodeXK (topNibble op) 0 (kkField op) := by
  apply BitVec.eq_of_getLsbD_eq
  intro i hi
  rw [encodeXK_eq_encodeA, getLsbD_encodeA, BitVec.getLsbD_append]
  unfold topNibble kkField
  interval_cases i <;> simp [nibble]

/-- An opcode agrees with a match value under the mask F000 exactly when its top nibble does. -/
theorem mask_F000_eq {op p : Word} (hp : p &&& 0xF000#16 = p) :
    op &&& 0xF000#16 = p ↔ topNibble op = topNibble p := by
  rw [mask_F000] at hp ⊢
  constructor
  · intro h
    rw [← h, topNibble_encodeA]
  · intro h
    rw [h, hp]

theorem mask_F00F_eq {op p : Word} (hp : p &&& 0xF00F#16 = p) :
    op &&& 0xF00F#16 = p ↔ topNibble op = topNibble p ∧ lowNibble op = lowNibble p := by
  rw [mask_F00F] at hp ⊢
  constructor
  · intro h
    exact ⟨by rw [← h, topNibble_encodeXY], by rw [← h, lowNibble_encodeXY]⟩
  · rintro ⟨h₁, h₂⟩
    rw [h₁, h₂, hp]

theorem mask_F0FF_eq {op p : Word} (hp : p &&& 0xF0FF#16 = p) :
    op &&& 0xF0FF#16 = p ↔ topNibble op = topNibble p ∧ kkField op = kkField p := by
  rw [mask_F0FF] at hp ⊢
  constructor
  · intro h
    exact ⟨by rw [← h, topNibble_encodeXK], by rw [← h, kkField_encodeXK]⟩
  · rintro ⟨h₁, h₂⟩
    rw [h₁, h₂, hp]

/-! ## Bytes in memory order -/

@[simp] theorem combine_bytes (op : Word) :
    combine (op.extractLsb' 8 8) (op.extractLsb' 0 8) = op := by
  apply BitVec.eq_of_toNat_eq
  have h : (combine (op.extractLsb' 8 8) (op.extractLsb' 0 8)).toNat =
      (op.extractLsb' 8 8 ++ op.extractLsb' 0 8).toNat := rfl
  have := op.isLt
  rw [h, toNat_append_eq, BitVec.extractLsb'_toNat, BitVec.extractLsb'_toNat,
    Nat.shiftRight_eq_div_pow, Nat.shiftRight_eq_div_pow]
  omega

/-- The byte decoder on an opcode's bytes is the decoder on the opcode. -/
@[simp] theorem decodeBytes_opBytes (op : Word) (rest : List Byte) :
    decodeBytes (opBytes op ++ rest) = .ok (decode op, rest) := by
  simp [opBytes, decodeBytes]

end Sys2Proof
end

