-- ==== Sys2Proof/Laws/Memory.lean ====
section
/-!
SUPPORT. The laws of memory: a read after a write, the canonical form under every memory operation,
and which cell an address reaches (20_memory.md R52, R62).
-/

namespace Sys2Proof.Machine

/-! ## Reading -/

@[simp] theorem Memory.read_nil (a : Nat) : Memory.read [] a = resetByte a := rfl

theorem Memory.read_cons (k : Nat) (b : Byte) (m : Memory) (a : Nat) :
    Memory.read ((k, b) :: m) a = if k = a then b else Memory.read m a := rfl

theorem Memory.wfFrom_cons {lo k : Nat} {b : Byte} {m : Memory} :
    Memory.wfFrom lo ((k, b) :: m) = true ↔
      lo ≤ k ∧ k < Config.memSize ∧ b ≠ resetByte k ∧ Memory.wfFrom (k + 1) m = true := by
  simp [Memory.wfFrom, and_assoc]

theorem Memory.wfFrom_mono {lo hi : Nat} {m : Memory} (h : Memory.wfFrom hi m = true)
    (hle : lo ≤ hi) : Memory.wfFrom lo m = true := by
  cases m with
  | nil => rfl
  | cons p m =>
    obtain ⟨k, b⟩ := p
    rw [Memory.wfFrom_cons] at h ⊢
    exact ⟨le_trans hle h.1, h.2⟩

/-- Below the addresses listed, memory reads as at construction. -/
theorem Memory.read_below {lo : Nat} {m : Memory} (h : Memory.wfFrom lo m = true) {a : Nat}
    (ha : a < lo) : m.read a = resetByte a := by
  induction m generalizing lo with
  | nil => rfl
  | cons p m ih =>
    obtain ⟨k, b⟩ := p
    rw [Memory.wfFrom_cons] at h
    rw [Memory.read_cons, if_neg (by omega)]
    exact ih h.2.2.2 (by omega)

/-! ## Writing -/

theorem Memory.read_consCell {m : Memory} {a : Nat} {v : Byte} (h : m.read a = resetByte a)
    (c : Nat) : (Memory.cons a v m).read c = if c = a then v else m.read c := by
  unfold Memory.cons
  split
  · next hv => split <;> simp_all
  · rw [Memory.read_cons]
    by_cases hca : c = a
    · simp [hca]
    · rw [if_neg (Ne.symm hca), if_neg hca]

/-- A read after a write: the value written at its address, every other address as before. -/
theorem Memory.read_write {lo : Nat} {m : Memory} (h : Memory.wfFrom lo m = true) (a : Nat)
    (v : Byte) (c : Nat) : (m.write a v).read c = if c = a then v else m.read c := by
  induction m generalizing lo with
  | nil => exact Memory.read_consCell (m := []) rfl c
  | cons p m ih =>
    obtain ⟨k, b⟩ := p
    have hw := Memory.wfFrom_cons.1 h
    unfold Memory.write
    split
    · next hlt =>
      exact Memory.read_consCell
        (Memory.read_below (Memory.wfFrom_cons.2 ⟨le_refl k, hw.2⟩) hlt) c
    · split
      · next hak =>
        subst hak
        rw [Memory.read_consCell (Memory.read_below hw.2.2.2 (Nat.lt_succ_self a)), Memory.read_cons]
        by_cases hc : c = a
        · simp [hc]
        · rw [if_neg hc, if_neg hc, if_neg (Ne.symm hc)]
      · next hak =>
        rw [Memory.read_cons, Memory.read_cons, ih hw.2.2.2]
        by_cases hc : c = a
        · rw [if_pos hc, if_pos hc, if_neg (by omega)]
        · rw [if_neg hc, if_neg hc]

theorem Memory.wfFrom_consCell {lo a : Nat} {v : Byte} {m : Memory} (hlo : lo ≤ a)
    (ha : a < Config.memSize) (h : Memory.wfFrom (a + 1) m = true) :
    Memory.wfFrom lo (Memory.cons a v m) = true := by
  unfold Memory.cons
  split
  · exact Memory.wfFrom_mono h (by omega)
  · next hv => exact Memory.wfFrom_cons.2 ⟨hlo, ha, hv, h⟩

theorem Memory.wfFrom_write {lo a : Nat} {m : Memory} (v : Byte) (h : Memory.wfFrom lo m = true)
    (hlo : lo ≤ a) (ha : a < Config.memSize) : Memory.wfFrom lo (m.write a v) = true := by
  induction m generalizing lo with
  | nil => exact Memory.wfFrom_consCell hlo ha rfl
  | cons p m ih =>
    obtain ⟨k, b⟩ := p
    have hw := Memory.wfFrom_cons.1 h
    unfold Memory.write
    split
    · next hlt =>
      exact Memory.wfFrom_consCell hlo ha (Memory.wfFrom_cons.2 ⟨hlt, hw.2⟩)
    · split
      · next hak => subst hak; exact Memory.wfFrom_consCell hlo ha hw.2.2.2
      · next hak =>
        exact Memory.wfFrom_cons.2 ⟨hw.1, hw.2.1, hw.2.2.1, ih hw.2.2.2 (by omega)⟩

/-- A write keeps the canonical form. -/
theorem Memory.wf_write {m : Memory} (h : m.wf = true) {a : Nat} (ha : a < Config.memSize)
    (v : Byte) : (m.write a v).wf = true :=
  Memory.wfFrom_write v h (Nat.zero_le a) ha

/-- Construction's memory is in canonical form. -/
theorem Memory.wf_reset : State.reset.mem.wf = true := rfl

/-! ## Writing a list -/

theorem Memory.wf_writeList {m : Memory} (h : m.wf = true) {a : Nat} {bs : List Byte}
    (ha : a + bs.length ≤ Config.memSize) : (m.writeList a bs).wf = true := by
  induction bs generalizing m a with
  | nil => exact h
  | cons b bs ih =>
    simp only [List.length_cons] at ha
    exact ih (Memory.wf_write h (by omega) b) (by omega)

/-- A read after a list was written: byte j of the list at its address, all else as before. -/
theorem Memory.read_writeList {m : Memory} (h : m.wf = true) {a : Nat} {bs : List Byte}
    (ha : a + bs.length ≤ Config.memSize) (c : Nat) :
    (m.writeList a bs).read c =
      if a ≤ c then bs.getD (c - a) (m.read c) else m.read c := by
  induction bs generalizing m a with
  | nil => simp [Memory.writeList]
  | cons b bs ih =>
    simp only [List.length_cons] at ha
    rw [Memory.writeList, ih (Memory.wf_write h (by omega) b) (by omega),
      Memory.read_write h]
    by_cases hc : c = a
    · subst hc
      rw [if_neg (by omega), if_pos rfl, if_pos (le_refl c), Nat.sub_self]
      rfl
    · rw [if_neg hc]
      by_cases hle : a ≤ c
      · rw [if_pos (by omega), if_pos hle, show c - a = (c - (a + 1)) + 1 by omega]
        rfl
      · rw [if_neg (by omega), if_neg hle]

/-! ## Cells -/

theorem memCell_lt {mode : MemOob} {a c : Nat} (h : memCell mode a = some c) :
    c < Config.memSize := by
  unfold memCell at h
  split at h
  · simp only [Option.some.injEq] at h; omega
  · split at h
    · simp only [Option.some.injEq] at h
      exact h ▸ Nat.mod_lt _ (by decide)
    · exact absurd h (by simp)

theorem memCell_of_lt (mode : MemOob) {a : Nat} (h : a < Config.memSize) :
    memCell mode a = some a := if_pos h

/-- Under either mode, two addresses less than 4096 apart do not share a cell. -/
theorem memCell_inj {mode : MemOob} {a j k c : Nat} (hj : j < Config.memSize)
    (hk : k < Config.memSize) (h₁ : memCell mode (a + j) = some c)
    (h₂ : memCell mode (a + k) = some c) : j = k := by
  have mod_of : ∀ b, memCell mode b = some c → b % Config.memSize = c := by
    intro b hb
    unfold memCell at hb
    split at hb
    · next hlt => simp only [Option.some.injEq] at hb; rw [← hb]; exact Nat.mod_eq_of_lt hlt
    · split at hb
      · simpa using hb
      · exact absurd hb (by simp)
  have h1 := mod_of _ h₁
  have h2 := mod_of _ h₂
  simp only [Config.memSize] at *
  omega

end Sys2Proof.Machine
end

