-- ==== Sys2Proof/Laws/State.lean ====
section
/-!
SUPPORT. What each small state update leaves in each field, by computation, so that no proof
unfolds a record update.
-/

namespace Sys2Proof.Machine

/-! ## setV -/

@[simp] theorem State.setV_V (s : State) (x : Index16) (b : Byte) :
    (s.setV x b).V = s.V.set x.val b := rfl

@[simp] theorem State.setV_I (s : State) (x : Index16) (b : Byte) : (s.setV x b).I = s.I := rfl

@[simp] theorem State.setV_pc (s : State) (x : Index16) (b : Byte) : (s.setV x b).pc = s.pc := rfl

@[simp] theorem State.setV_SP (s : State) (x : Index16) (b : Byte) : (s.setV x b).SP = s.SP := rfl

@[simp] theorem State.setV_stack (s : State) (x : Index16) (b : Byte) : (s.setV x b).stack = s.stack := rfl

@[simp] theorem State.setV_DT (s : State) (x : Index16) (b : Byte) : (s.setV x b).DT = s.DT := rfl

@[simp] theorem State.setV_ST (s : State) (x : Index16) (b : Byte) : (s.setV x b).ST = s.ST := rfl

@[simp] theorem State.setV_mem (s : State) (x : Index16) (b : Byte) : (s.setV x b).mem = s.mem := rfl

@[simp] theorem State.setV_fb (s : State) (x : Index16) (b : Byte) : (s.setV x b).fb = s.fb := rfl

@[simp] theorem State.setV_key (s : State) (x : Index16) (b : Byte) : (s.setV x b).key = s.key := rfl

@[simp] theorem State.setV_undef (s : State) (x : Index16) (b : Byte) : (s.setV x b).undef = s.undef := rfl

@[simp] theorem State.setV_params (s : State) (x : Index16) (b : Byte) : (s.setV x b).params = s.params := rfl

@[simp] theorem State.setV_rnd (s : State) (x : Index16) (b : Byte) : (s.setV x b).rnd = s.rnd := rfl

@[simp] theorem State.setV_rndCount (s : State) (x : Index16) (b : Byte) : (s.setV x b).rndCount = s.rndCount := rfl

/-! ## advance -/

@[simp] theorem State.advance_V (s : State) : (s.advance).V = s.V := rfl

@[simp] theorem State.advance_I (s : State) : (s.advance).I = s.I := rfl

@[simp] theorem State.advance_pc (s : State) :
    (s.advance).pc = s.pc + 2#16 := rfl

@[simp] theorem State.advance_SP (s : State) : (s.advance).SP = s.SP := rfl

@[simp] theorem State.advance_stack (s : State) : (s.advance).stack = s.stack := rfl

@[simp] theorem State.advance_DT (s : State) : (s.advance).DT = s.DT := rfl

@[simp] theorem State.advance_ST (s : State) : (s.advance).ST = s.ST := rfl

@[simp] theorem State.advance_mem (s : State) : (s.advance).mem = s.mem := rfl

@[simp] theorem State.advance_fb (s : State) : (s.advance).fb = s.fb := rfl

@[simp] theorem State.advance_key (s : State) : (s.advance).key = s.key := rfl

@[simp] theorem State.advance_undef (s : State) : (s.advance).undef = s.undef := rfl

@[simp] theorem State.advance_params (s : State) : (s.advance).params = s.params := rfl

@[simp] theorem State.advance_rnd (s : State) : (s.advance).rnd = s.rnd := rfl

@[simp] theorem State.advance_rndCount (s : State) : (s.advance).rndCount = s.rndCount := rfl

/-! ## rewind -/

@[simp] theorem State.rewind_V (s : State) : (s.rewind).V = s.V := rfl

@[simp] theorem State.rewind_I (s : State) : (s.rewind).I = s.I := rfl

@[simp] theorem State.rewind_pc (s : State) :
    (s.rewind).pc = s.pc - 2#16 := rfl

@[simp] theorem State.rewind_SP (s : State) : (s.rewind).SP = s.SP := rfl

@[simp] theorem State.rewind_stack (s : State) : (s.rewind).stack = s.stack := rfl

@[simp] theorem State.rewind_DT (s : State) : (s.rewind).DT = s.DT := rfl

@[simp] theorem State.rewind_ST (s : State) : (s.rewind).ST = s.ST := rfl

@[simp] theorem State.rewind_mem (s : State) : (s.rewind).mem = s.mem := rfl

@[simp] theorem State.rewind_fb (s : State) : (s.rewind).fb = s.fb := rfl

@[simp] theorem State.rewind_key (s : State) : (s.rewind).key = s.key := rfl

@[simp] theorem State.rewind_undef (s : State) : (s.rewind).undef = s.undef := rfl

@[simp] theorem State.rewind_params (s : State) : (s.rewind).params = s.params := rfl

@[simp] theorem State.rewind_rnd (s : State) : (s.rewind).rnd = s.rnd := rfl

@[simp] theorem State.rewind_rndCount (s : State) : (s.rewind).rndCount = s.rndCount := rfl

/-! ## jumpTo -/

@[simp] theorem State.jumpTo_V (s : State) (target : Word) : (s.jumpTo target).V = s.V := rfl

@[simp] theorem State.jumpTo_I (s : State) (target : Word) : (s.jumpTo target).I = s.I := rfl

@[simp] theorem State.jumpTo_pc (s : State) (target : Word) :
    (s.jumpTo target).pc = target := rfl

@[simp] theorem State.jumpTo_SP (s : State) (target : Word) : (s.jumpTo target).SP = s.SP := rfl

@[simp] theorem State.jumpTo_stack (s : State) (target : Word) : (s.jumpTo target).stack = s.stack := rfl

@[simp] theorem State.jumpTo_DT (s : State) (target : Word) : (s.jumpTo target).DT = s.DT := rfl

@[simp] theorem State.jumpTo_ST (s : State) (target : Word) : (s.jumpTo target).ST = s.ST := rfl

@[simp] theorem State.jumpTo_mem (s : State) (target : Word) : (s.jumpTo target).mem = s.mem := rfl

@[simp] theorem State.jumpTo_fb (s : State) (target : Word) : (s.jumpTo target).fb = s.fb := rfl

@[simp] theorem State.jumpTo_key (s : State) (target : Word) : (s.jumpTo target).key = s.key := rfl

@[simp] theorem State.jumpTo_undef (s : State) (target : Word) : (s.jumpTo target).undef = s.undef := rfl

@[simp] theorem State.jumpTo_params (s : State) (target : Word) : (s.jumpTo target).params = s.params := rfl

@[simp] theorem State.jumpTo_rnd (s : State) (target : Word) : (s.jumpTo target).rnd = s.rnd := rfl

@[simp] theorem State.jumpTo_rndCount (s : State) (target : Word) : (s.jumpTo target).rndCount = s.rndCount := rfl

/-! ## decay -/

@[simp] theorem State.decay_V (s : State) : (s.decay).V = s.V := rfl

@[simp] theorem State.decay_I (s : State) : (s.decay).I = s.I := rfl

@[simp] theorem State.decay_pc (s : State) : (s.decay).pc = s.pc := rfl

@[simp] theorem State.decay_SP (s : State) : (s.decay).SP = s.SP := rfl

@[simp] theorem State.decay_stack (s : State) : (s.decay).stack = s.stack := rfl

@[simp] theorem State.decay_DT (s : State) :
    (s.decay).DT = decayTimer s.DT := rfl

@[simp] theorem State.decay_ST (s : State) :
    (s.decay).ST = decayTimer s.ST := rfl

@[simp] theorem State.decay_mem (s : State) : (s.decay).mem = s.mem := rfl

@[simp] theorem State.decay_fb (s : State) : (s.decay).fb = s.fb := rfl

@[simp] theorem State.decay_key (s : State) : (s.decay).key = s.key := rfl

@[simp] theorem State.decay_undef (s : State) : (s.decay).undef = s.undef := rfl

@[simp] theorem State.decay_params (s : State) : (s.decay).params = s.params := rfl

@[simp] theorem State.decay_rnd (s : State) : (s.decay).rnd = s.rnd := rfl

@[simp] theorem State.decay_rndCount (s : State) : (s.decay).rndCount = s.rndCount := rfl

/-! ## skipIf -/

@[simp] theorem State.skipIf_V (s : State) (c : Bool) : (s.skipIf c).V = s.V := by
  cases c <;> rfl

@[simp] theorem State.skipIf_I (s : State) (c : Bool) : (s.skipIf c).I = s.I := by
  cases c <;> rfl

theorem State.skipIf_pc (s : State) (c : Bool) :
    (s.skipIf c).pc = if c then s.pc + 2#16 else s.pc := by
  cases c <;> rfl

@[simp] theorem State.skipIf_SP (s : State) (c : Bool) : (s.skipIf c).SP = s.SP := by
  cases c <;> rfl

@[simp] theorem State.skipIf_stack (s : State) (c : Bool) : (s.skipIf c).stack = s.stack := by
  cases c <;> rfl

@[simp] theorem State.skipIf_DT (s : State) (c : Bool) : (s.skipIf c).DT = s.DT := by
  cases c <;> rfl

@[simp] theorem State.skipIf_ST (s : State) (c : Bool) : (s.skipIf c).ST = s.ST := by
  cases c <;> rfl

@[simp] theorem State.skipIf_mem (s : State) (c : Bool) : (s.skipIf c).mem = s.mem := by
  cases c <;> rfl

@[simp] theorem State.skipIf_fb (s : State) (c : Bool) : (s.skipIf c).fb = s.fb := by
  cases c <;> rfl

@[simp] theorem State.skipIf_key (s : State) (c : Bool) : (s.skipIf c).key = s.key := by
  cases c <;> rfl

@[simp] theorem State.skipIf_undef (s : State) (c : Bool) : (s.skipIf c).undef = s.undef := by
  cases c <;> rfl

@[simp] theorem State.skipIf_params (s : State) (c : Bool) : (s.skipIf c).params = s.params := by
  cases c <;> rfl

@[simp] theorem State.skipIf_rnd (s : State) (c : Bool) : (s.skipIf c).rnd = s.rnd := by
  cases c <;> rfl

@[simp] theorem State.skipIf_rndCount (s : State) (c : Bool) : (s.skipIf c).rndCount = s.rndCount := by
  cases c <;> rfl

/-! ## Registers -/

theorem State.getV_def (s : State) (x : Index16) : s.getV x = s.V[x.val] := rfl

@[simp] theorem State.getV_setV_self (s : State) (x : Index16) (b : Byte) :
    (s.setV x b).getV x = b := by
  simp [State.getV]

theorem State.getV_setV (s : State) (x y : Index16) (b : Byte) :
    (s.setV x b).getV y = if y = x then b else s.getV y := by
  by_cases h : y = x
  · subst h; simp
  · rw [if_neg h]
    have hne : x.val ≠ y.val := fun e => h (Fin.ext e.symm)
    simp [State.getV, hne]

/-! ## writeResultAndFlag -/

/-- The write-back of 40_cycle.md R116 changes only the register file: it is two register writes, or
one. -/
theorem State.writeResultAndFlag_cases (s : State) (x : Index16) (r : Flagged) :
    (x ≠ VF ∧ s.writeResultAndFlag x r = (s.setV x r.result).setV VF (flagByte r.flag)) ∨
    (x = VF ∧ s.params.vfAlias = .flagWins ∧
      s.writeResultAndFlag x r = s.setV VF (flagByte r.flag)) ∨
    (x = VF ∧ s.params.vfAlias = .resultWins ∧
      s.writeResultAndFlag x r = s.setV VF r.result) := by
  unfold State.writeResultAndFlag
  by_cases h : x = VF
  · cases hp : s.params.vfAlias <;> simp [h]
  · simp [h]

theorem State.writeResultAndFlag_eq (s : State) (x : Index16) (r : Flagged) :
    s.writeResultAndFlag x r = { s with V := (s.writeResultAndFlag x r).V } := by
  rcases s.writeResultAndFlag_cases x r with ⟨_, h⟩ | ⟨_, _, h⟩ | ⟨_, _, h⟩ <;> rw [h] <;> rfl

end Sys2Proof.Machine
end

