-- ==== Sys2Proof/Laws/Ops.lean ====
section
/-!
SUPPORT. One lemma for each shared operation that says what it can do, cited by later proofs
instead of unfolding it.
-/

namespace Sys2Proof.Machine

/-! ## memRead, memWrite -/

theorem memRead_eq_ok {s : State} {a : Nat} {b : Byte} :
    memRead s a = .ok b ↔ ∃ c, memCell s.params.memOob a = some c ∧ b = s.mem.read c := by
  unfold memRead
  cases memCell s.params.memOob a <;> simp [raise, eq_comm]

theorem memRead_eq_error {s : State} {a : Nat} {f : Fault} :
    memRead s a = .error f ↔ memCell s.params.memOob a = none ∧ f = .undefined .memOob := by
  unfold memRead
  cases memCell s.params.memOob a <;> simp [raise, eq_comm]

theorem memWrite_eq_ok {s t : State} {a : Nat} {v : Byte} :
    memWrite s a v = .ok t ↔
      ∃ c, memCell s.params.memOob a = some c ∧ t = { s with mem := s.mem.write c v } := by
  unfold memWrite
  cases memCell s.params.memOob a <;> simp [raise, eq_comm]

theorem memWrite_eq_error {s : State} {a : Nat} {v : Byte} {f : Fault} :
    memWrite s a v = .error f ↔ memCell s.params.memOob a = none ∧ f = .undefined .memOob := by
  unfold memWrite
  cases memCell s.params.memOob a <;> simp [raise, eq_comm]

/-! ## storeBytes -/

/-- A store of a list changes memory only. -/
theorem storeBytes_eq {bs : List Byte} : ∀ {s t : State} {a : Nat},
    storeBytes s a bs = .ok t → t = { s with mem := t.mem } := by
  induction bs with
  | nil =>
    intro s t a h
    simp only [storeBytes, Except.ok.injEq] at h
    subst h
    rfl
  | cons b bs ih =>
    intro s t a h
    unfold storeBytes at h
    split at h
    · next u hu =>
      obtain ⟨c, _, rfl⟩ := memWrite_eq_ok.1 hu
      exact (ih h).trans rfl
    · exact absurd h (by simp)

/-- A store of a list keeps the canonical form and changes no cell but those it reaches. -/
theorem storeBytes_frame {bs : List Byte} : ∀ {s t : State} {a : Nat},
    s.mem.wf = true → storeBytes s a bs = .ok t →
      t.mem.wf = true ∧ ∀ c, ¬ s.Reaches a bs.length c → t.mem.read c = s.mem.read c := by
  induction bs with
  | nil =>
    intro s t a hw h
    simp only [storeBytes, Except.ok.injEq] at h
    subst h
    exact ⟨hw, fun _ _ => rfl⟩
  | cons b bs ih =>
    intro s t a hw h
    unfold storeBytes at h
    split at h
    · next u hu =>
      obtain ⟨c₀, hc₀, rfl⟩ := memWrite_eq_ok.1 hu
      obtain ⟨h₂, h₃⟩ := ih (Memory.wf_write hw (memCell_lt hc₀) b) h
      refine ⟨h₂, fun c hc => ?_⟩
      have hne : c ≠ c₀ := by
        rintro rfl
        exact hc ⟨0, by simp, by simpa using hc₀⟩
      rw [h₃ c, Memory.read_write hw, if_neg hne]
      rintro ⟨k, hk, hcell⟩
      exact hc ⟨k + 1, by simp only [List.length_cons]; omega, by
        rw [show a + (k + 1) = a + 1 + k by omega]; exact hcell⟩
    · exact absurd h (by simp)

/-- A store of a list completes exactly when every address is defined. -/
theorem storeBytes_ok_iff {bs : List Byte} : ∀ {s : State} {a : Nat},
    (∃ t, storeBytes s a bs = .ok t) ↔ s.Accessible a bs.length := by
  induction bs with
  | nil => intro s a; simp [storeBytes, State.Accessible]
  | cons b bs ih =>
    intro s a
    unfold storeBytes
    cases hw : memWrite s a b with
    | error f =>
      have hnone := (memWrite_eq_error.1 hw).1
      simp only [reduceCtorEq, exists_false, false_iff]
      intro hacc
      exact hacc 0 (by simp) (by simpa using hnone)
    | ok u =>
      obtain ⟨c₀, hc₀, rfl⟩ := memWrite_eq_ok.1 hw
      rw [ih]
      constructor
      · intro h k hk
        rcases k with _ | k
        · simp [hc₀]
        · have := h k (by simp only [List.length_cons] at hk; omega)
          rwa [show a + 1 + k = a + (k + 1) by omega] at this
      · intro h k hk
        have := h (k + 1) (by simp only [List.length_cons]; omega)
        rwa [show a + (k + 1) = a + 1 + k by omega] at this

/-- A store that does not complete stops with `MEM_OOB`. -/
theorem storeBytes_error {bs : List Byte} : ∀ {s : State} {a : Nat} {f : Fault},
    storeBytes s a bs = .error f → f = .undefined .memOob := by
  induction bs with
  | nil => intro s a f h; exact absurd h (by simp [storeBytes])
  | cons b bs ih =>
    intro s a f h
    unfold storeBytes at h
    split at h
    · exact ih h
    · next f' hf =>
      simp only [Except.error.injEq] at h
      exact h ▸ (memWrite_eq_error.1 hf).2

/-- After a store of at most 4096 bytes, byte j of the list stands in the cell of its address. -/
theorem storeBytes_read {bs : List Byte} : ∀ {s t : State} {a : Nat},
    s.mem.wf = true → bs.length ≤ Config.memSize → storeBytes s a bs = .ok t →
      ∀ j (hj : j < bs.length) c, memCell s.params.memOob (a + j) = some c →
        t.mem.read c = bs[j] := by
  induction bs with
  | nil => intro s t a _ _ _ j hj; exact absurd hj (by simp)
  | cons b bs ih =>
    intro s t a hw hlen h j hj c hc
    simp only [List.length_cons] at hlen hj
    unfold storeBytes at h
    split at h
    · next u hu =>
      obtain ⟨c₀, hc₀, rfl⟩ := memWrite_eq_ok.1 hu
      have hw' := Memory.wf_write hw (memCell_lt hc₀) b
      rcases j with _ | j
      · obtain ⟨_, h₃⟩ := storeBytes_frame hw' h
        have hcc : c = c₀ := Option.some.inj (hc.symm.trans hc₀)
        subst hcc
        rw [h₃ c, Memory.read_write hw, if_pos rfl]
        · rfl
        · rintro ⟨k, hk, hcell⟩
          have hz : 0 = k + 1 := memCell_inj (mode := s.params.memOob) (a := a)
            (by simp only [Config.memSize] at *; omega)
            (by simp only [Config.memSize] at *; omega) hc (by
              rw [show a + (k + 1) = a + 1 + k by omega]; exact hcell)
          omega
      · exact ih hw' (by omega) h j (by omega) c (by
          rw [show a + 1 + j = a + (j + 1) by omega]; exact hc)
    · exact absurd h (by simp)

/-! ## loadBytes -/

/-- What a load of n bytes answers. -/
theorem loadBytes_eq_ok {s : State} {n : Nat} : ∀ {a : Nat} {bs : List Byte},
    loadBytes s a n = .ok bs →
      bs.length = n ∧ s.Accessible a n ∧
      ∀ j (hj : j < bs.length) c, memCell s.params.memOob (a + j) = some c →
        bs[j] = s.mem.read c := by
  induction n with
  | zero =>
    intro a bs h
    simp only [loadBytes, Except.ok.injEq] at h
    subst h
    exact ⟨rfl, fun k hk => absurd hk (by simp), fun j hj => absurd hj (by simp)⟩
  | succ n ih =>
    intro a bs h
    unfold loadBytes at h
    split at h
    · next b hb =>
      split at h
      · next bs' hbs =>
        simp only [Except.ok.injEq] at h
        subst h
        obtain ⟨c₀, hc₀, rfl⟩ := memRead_eq_ok.1 hb
        obtain ⟨h₁, h₂, h₃⟩ := ih hbs
        refine ⟨by simp [h₁], fun k hk => ?_, fun j hj c hc => ?_⟩
        · rcases k with _ | k
          · simp [hc₀]
          · have := h₂ k (by omega)
            rwa [show a + 1 + k = a + (k + 1) by omega] at this
        · rcases j with _ | j
          · have hcc : c = c₀ := Option.some.inj (hc.symm.trans hc₀)
            simp [hcc]
          · simp only [List.length_cons] at hj
            exact h₃ j (by omega) c (by rw [show a + 1 + j = a + (j + 1) by omega]; exact hc)
      · exact absurd h (by simp)
    · exact absurd h (by simp)

/-- A load of n bytes completes exactly when every address is defined. -/
theorem loadBytes_ok_iff {s : State} {n : Nat} : ∀ {a : Nat},
    (∃ bs, loadBytes s a n = .ok bs) ↔ s.Accessible a n := by
  induction n with
  | zero => intro a; simp [loadBytes, State.Accessible]
  | succ n ih =>
    intro a
    constructor
    · rintro ⟨bs, h⟩
      exact (loadBytes_eq_ok h).2.1
    · intro h
      unfold loadBytes
      have h0 := h 0 (by omega)
      obtain ⟨c, hc⟩ := Option.ne_none_iff_exists'.1 h0
      have hr : memRead s a = .ok (s.mem.read c) := memRead_eq_ok.2 ⟨c, hc, rfl⟩
      obtain ⟨bs, hbs⟩ := (ih (a := a + 1)).2 fun k hk => by
        have := h (k + 1) (by omega)
        rwa [show a + (k + 1) = a + 1 + k by omega] at this
      exact ⟨s.mem.read c :: bs, by rw [hr]; simp only [hbs]⟩

/-- A load that does not complete stops with `MEM_OOB`. -/
theorem loadBytes_error {s : State} {n : Nat} : ∀ {a : Nat} {f : Fault},
    loadBytes s a n = .error f → f = .undefined .memOob := by
  induction n with
  | zero => intro a f h; exact absurd h (by simp [loadBytes])
  | succ n ih =>
    intro a f h
    unfold loadBytes at h
    split at h
    · split at h
      · exact absurd h (by simp)
      · next f' hf =>
        simp only [Except.error.injEq] at h
        exact h ▸ ih hf
    · next f' hf =>
      simp only [Except.error.injEq] at h
      exact h ▸ (memRead_eq_error.1 hf).2

/-! ## Registers in a row -/

theorem length_firstRegisters (s : State) (x : Index16) :
    (s.firstRegisters x).length = x.val + 1 := by
  simp only [State.firstRegisters, List.length_take, Vector.length_toList]
  omega

theorem getElem_firstRegisters (s : State) (x : Index16) (j : Nat)
    (hj : j < (s.firstRegisters x).length) :
    (s.firstRegisters x)[j] =
      s.V[j]'(by rw [length_firstRegisters] at hj; omega) := by
  simp [State.firstRegisters]

/-- Register r after a list was written from register i on. -/
theorem getElem_setRegisters {bs : List Byte} : ∀ {V : Vector Byte 16} {i : Nat} (r : Nat)
    (hr : r < 16), i + bs.length ≤ 16 →
      (setRegisters V i bs)[r] =
        if h : i ≤ r ∧ r - i < bs.length then bs[r - i] else V[r] := by
  induction bs with
  | nil => intro V i r hr _; simp [setRegisters]
  | cons b bs ih =>
    intro V i r hr hlen
    simp only [List.length_cons] at hlen
    rw [setRegisters, ih r hr (by omega)]
    by_cases hri : r = i
    · subst hri
      simp
    · by_cases hlt : i < r
      · by_cases hb : r - i < bs.length + 1
        · rw [dif_pos ⟨by omega, by omega⟩, dif_pos ⟨by omega, by simpa using hb⟩]
          have : r - i = (r - (i + 1)) + 1 := by omega
          simp only [this, List.getElem_cons_succ]
        · rw [dif_neg (by omega), dif_neg (by simp only [List.length_cons]; omega)]
          simp [Ne.symm hri]
      · rw [dif_neg (by omega), dif_neg (by omega)]
        simp [Ne.symm hri]

/-! ## Stack -/

theorem State.push_eq_ok {s t : State} {w : Word} :
    s.push w = .ok t ↔ ∃ h : s.SP.toNat < 16,
      t = { s with stack := s.stack.set s.SP.toNat w, SP := s.SP + 1#8 } := by
  unfold State.push
  split <;> simp_all [raise, eq_comm]

theorem State.pop_eq_ok {s t : State} {w : Word} :
    s.pop = .ok (w, t) ↔ ∃ _ : s.SP ≠ 0#8, ∃ h : s.SP.toNat - 1 < 16,
      w = s.stack[s.SP.toNat - 1] ∧ t = { s with SP := s.SP - 1#8 } := by
  unfold State.pop
  by_cases h0 : s.SP = 0#8
  · simp [h0, raise]
  · by_cases h1 : s.SP.toNat - 1 < 16
    · rw [if_neg h0, dif_pos h1]
      constructor
      · intro h
        simp only [Except.ok.injEq, Prod.mk.injEq] at h
        exact ⟨h0, h1, h.1.symm, h.2.symm⟩
      · rintro ⟨_, _, rfl, rfl⟩
        rfl
    · rw [if_neg h0, dif_neg h1]
      constructor
      · intro h
        exact absurd h (by simp [raise])
      · rintro ⟨_, h, _⟩
        exact absurd h h1

/-! ## Random byte -/

/-- A draw changes only the random input port. -/
theorem rand8_eq (s : State) :
    (rand8 s).2 = { s with rnd := (rand8 s).2.rnd, rndCount := (rand8 s).2.rndCount } := by
  unfold rand8
  cases h : s.rnd <;> rfl

/-! ## Keypad -/

/-- The lowest-numbered pressed key. -/
theorem firstPressed_eq_some {key : Keypad} {k : Index16} :
    firstPressed key = some k ↔
      key[k.val] = true ∧ ∀ j : Index16, j < k → key[j.val] = false := by
  unfold firstPressed
  rw [List.find?_eq_some_iff_getElem]
  constructor
  · rintro ⟨hk, i, hi, hik, hlt⟩
    have hik' : (i : Nat) = k.val := by
      rw [← hik]; simp
    refine ⟨hk, fun j hj => ?_⟩
    have := hlt j.val (by rw [hik']; exact hj)
    simpa using this
  · rintro ⟨hk, hlt⟩
    refine ⟨hk, k.val, by simp, by simp, fun j hj => ?_⟩
    simpa using hlt ⟨j, by omega⟩ hj

theorem firstPressed_eq_none {key : Keypad} :
    firstPressed key = none ↔ ∀ k : Index16, key[k.val] = false := by
  unfold firstPressed
  simp [List.find?_eq_none]

theorem keyIndex_eq_error {mode : KeyOob} {v : Byte} {f : Fault} :
    keyIndex mode v = .error f ↔
      16 ≤ v.toNat ∧ mode = .undefined ∧ f = .undefined .keyOob := by
  unfold keyIndex
  split
  · next h => simp; omega
  · next h =>
    cases mode <;> simp [raise, eq_comm]
    omega

end Sys2Proof.Machine
end

