-- ==== Sys2Proof/Laws/Draw.lean ====
section
/-!
SUPPORT. What drawing does to the framebuffer and to the collision bit (41_display.md R131 to
R133): a pixel changes exactly when a set sprite bit is plotted there, and the collision bit is set
exactly when such a pixel was on.
-/

namespace Sys2Proof.Machine

/-! ## One pixel -/

theorem Framebuffer.pixel_toggle (fb : Framebuffer) (col x : Fin 64) (row y : Fin 32) :
    (fb.toggle col row).pixel x y =
      if x = col ∧ y = row then !fb.pixel x y else fb.pixel x y := by
  unfold Framebuffer.toggle Framebuffer.pixel
  by_cases hy : y = row
  · subst hy
    by_cases hx : x = col
    · subst hx; simp
    · have : col.val ≠ x.val := fun e => hx (Fin.ext e.symm)
      simp [hx, this]
  · have : row.val ≠ y.val := fun e => hy (Fin.ext e.symm)
    simp [hy, this]

theorem Framebuffer.pixel_blank (x : Fin 64) (y : Fin 32) :
    Framebuffer.blank.pixel x y = false := by
  simp [Framebuffer.blank, Framebuffer.pixel]

/-- Framebuffers with the same pixels are equal. -/
theorem Framebuffer.ext_pixel {f g : Framebuffer} (h : ∀ x y, f.pixel x y = g.pixel x y) :
    f = g := by
  apply Vector.ext
  intro j hj
  apply Vector.ext
  intro i hi
  exact h ⟨i, hi⟩ ⟨j, hj⟩

/-! ## plotCell -/

theorem plotCell_mod {edge : DrawEdge} {X Y : Nat} {x : Fin 64} {y : Fin 32}
    (h : plotCell edge X Y = some (some (x, y))) : x.val = X % 64 ∧ y.val = Y % 32 := by
  unfold plotCell at h
  split at h
  · next hb =>
    simp only [Option.some.injEq, Prod.mk.injEq] at h
    obtain ⟨rfl, rfl⟩ := h
    exact ⟨(Nat.mod_eq_of_lt hb.1).symm, (Nat.mod_eq_of_lt hb.2).symm⟩
  · split at h
    · exact absurd h (by simp)
    · simp only [Option.some.injEq, Prod.mk.injEq] at h
      obtain ⟨rfl, rfl⟩ := h
      exact ⟨rfl, rfl⟩
    · exact absurd h (by simp)

/-- No two bits of one sprite reach the same pixel (R133). -/
theorem plotCell_inj {edge : DrawEdge} {px py c₁ c₂ r₁ r₂ : Nat} {p : Fin 64 × Fin 32}
    (hc₁ : c₁ < 64) (hc₂ : c₂ < 64) (hr₁ : r₁ < 32) (hr₂ : r₂ < 32)
    (h₁ : plotCell edge (px + c₁) (py + r₁) = some (some p))
    (h₂ : plotCell edge (px + c₂) (py + r₂) = some (some p)) : c₁ = c₂ ∧ r₁ = r₂ := by
  obtain ⟨x, y⟩ := p
  have e₁ := plotCell_mod h₁
  have e₂ := plotCell_mod h₂
  omega

/-! ## plot -/

theorem plot_eq_ok {edge : DrawEdge} {X Y : Nat} {c c' : Canvas} :
    plot edge X Y c = .ok c' ↔
      (plotCell edge X Y = some none ∧ c' = c) ∨
      ∃ x y, plotCell edge X Y = some (some (x, y)) ∧
        c' = ⟨c.fb.toggle x y, c.collision || c.fb.pixel x y⟩ := by
  unfold plot
  rcases plotCell edge X Y with _ | _ | ⟨x, y⟩
  · simp [raise]
  · simp [eq_comm]
  · simp [eq_comm]

theorem plot_eq_error {edge : DrawEdge} {X Y : Nat} {c : Canvas} {f : Fault} :
    plot edge X Y c = .error f ↔ plotCell edge X Y = none ∧ f = .undefined .drawOffscreen := by
  unfold plot
  rcases plotCell edge X Y with _ | _ | ⟨x, y⟩
  · simp [raise, eq_comm]
  · simp
  · simp

/-! ## Sets of plotted bits -/

/-- A canvas after plotting, at distinct pixels, exactly the bits that reach the pixels of `P`. -/
def Canvas.Plotted (c c' : Canvas) (P : Fin 64 → Fin 32 → Prop) : Prop :=
  (∀ x y, P x y → c'.fb.pixel x y = !c.fb.pixel x y) ∧
  (∀ x y, ¬ P x y → c'.fb.pixel x y = c.fb.pixel x y) ∧
  (c'.collision = true ↔ c.collision = true ∨ ∃ x y, P x y ∧ c.fb.pixel x y = true)

theorem Canvas.plotted_refl (c : Canvas) {P : Fin 64 → Fin 32 → Prop} (h : ∀ x y, ¬ P x y) :
    c.Plotted c P :=
  ⟨fun x y hp => absurd hp (h x y), fun _ _ _ => rfl, by simp [h]⟩

/-- Plotting two sets without a common pixel, one after the other, plots their union. -/
theorem Canvas.Plotted.trans {c₀ c₁ c₂ : Canvas} {P Q R : Fin 64 → Fin 32 → Prop}
    (h₁ : c₀.Plotted c₁ P) (h₂ : c₁.Plotted c₂ Q) (hR : ∀ x y, R x y ↔ P x y ∨ Q x y)
    (hd : ∀ x y, P x y → ¬ Q x y) : c₀.Plotted c₂ R := by
  obtain ⟨a₁, b₁, k₁⟩ := h₁
  obtain ⟨a₂, b₂, k₂⟩ := h₂
  refine ⟨fun x y hr => ?_, fun x y hr => ?_, ?_⟩
  · rcases (hR x y).1 hr with hp | hq
    · rw [b₂ x y (hd x y hp), a₁ x y hp]
    · rw [a₂ x y hq, b₁ x y fun hp => hd x y hp hq]
  · have hp : ¬ P x y := fun hp => hr ((hR x y).2 (.inl hp))
    have hq : ¬ Q x y := fun hq => hr ((hR x y).2 (.inr hq))
    rw [b₂ x y hq, b₁ x y hp]
  · rw [k₂, k₁]
    constructor
    · rintro ((h | ⟨x, y, hp, hon⟩) | ⟨x, y, hq, hon⟩)
      · exact .inl h
      · exact .inr ⟨x, y, (hR x y).2 (.inl hp), hon⟩
      · exact .inr ⟨x, y, (hR x y).2 (.inr hq), by rwa [← b₁ x y fun hp => hd x y hp hq]⟩
    · rintro (h | ⟨x, y, hr, hon⟩)
      · exact .inl (.inl h)
      · rcases (hR x y).1 hr with hp | hq
        · exact .inl (.inr ⟨x, y, hp, hon⟩)
        · exact .inr ⟨x, y, hq, by rwa [b₁ x y fun hp => hd x y hp hq]⟩

/-! ## drawByte, drawRows -/

/-- A set bit of byte `b` in one of the columns is plotted at (x, y). -/
def ByteCovers (edge : DrawEdge) (px Y : Nat) (b : Byte) (cols : List Nat) (x : Fin 64)
    (y : Fin 32) : Prop :=
  ∃ col ∈ cols, b.getLsbD (7 - col) = true ∧ plotCell edge (px + col) Y = some (some (x, y))

theorem plot_plotted {edge : DrawEdge} {X Y : Nat} {c c' : Canvas}
    (h : plot edge X Y c = .ok c') :
    c.Plotted c' fun x y => plotCell edge X Y = some (some (x, y)) := by
  rcases plot_eq_ok.1 h with ⟨hc, rfl⟩ | ⟨x₀, y₀, hc, rfl⟩
  · exact Canvas.plotted_refl _ (by simp [hc])
  · refine ⟨fun x y hp => ?_, fun x y hp => ?_, ?_⟩
    · simp only [hc, Option.some.injEq, Prod.mk.injEq] at hp
      rw [Framebuffer.pixel_toggle, if_pos ⟨hp.1.symm, hp.2.symm⟩]
    · simp only [hc, Option.some.injEq, Prod.mk.injEq] at hp
      rw [Framebuffer.pixel_toggle, if_neg fun e => hp ⟨e.1.symm, e.2.symm⟩]
    · simp only [hc, Option.some.injEq, Prod.mk.injEq, Bool.or_eq_true]
      constructor
      · rintro (h | h)
        · exact .inl h
        · exact .inr ⟨x₀, y₀, ⟨rfl, rfl⟩, h⟩
      · rintro (h | ⟨x, y, ⟨rfl, rfl⟩, h⟩)
        · exact .inl h
        · exact .inr h

theorem drawByte_plotted {edge : DrawEdge} {px Y : Nat} {b : Byte} {cols : List Nat} :
    ∀ {c c' : Canvas}, cols.Nodup → (∀ col ∈ cols, col < 64) →
      drawByte edge px Y b cols c = .ok c' → c.Plotted c' (ByteCovers edge px Y b cols) := by
  induction cols with
  | nil =>
    intro c c' _ _ h
    simp only [drawByte, Except.ok.injEq] at h
    subst h
    exact Canvas.plotted_refl _ fun x y => by simp [ByteCovers]
  | cons col cols ih =>
    intro c c' hnd hlt h
    obtain ⟨hnot, hnd'⟩ := List.nodup_cons.1 hnd
    unfold drawByte at h
    split at h
    · next c₁ hc₁ =>
      have htail := ih hnd' (fun k hk => hlt k (List.mem_cons_of_mem _ hk)) h
      have hhead : c.Plotted c₁ (ByteCovers edge px Y b [col]) := by
        by_cases hb : b.getLsbD (7 - col) = true
        · rw [if_pos hb] at hc₁
          have hset : ByteCovers edge px Y b [col] =
              fun x y => plotCell edge (px + col) Y = some (some (x, y)) := by
            funext x y
            simp [ByteCovers, hb]
          exact hset ▸ plot_plotted hc₁
        · rw [if_neg hb, Except.ok.injEq] at hc₁
          subst hc₁
          exact Canvas.plotted_refl _ fun x y => by simp [ByteCovers, hb]
      refine hhead.trans htail (fun x y => by simp [ByteCovers]) fun x y h₁ h₂ => ?_
      obtain ⟨c₁', hm₁, _, hp₁⟩ := h₁
      obtain ⟨c₂', hm₂, _, hp₂⟩ := h₂
      simp only [List.mem_singleton] at hm₁
      subst hm₁
      have := (plotCell_inj (r₁ := 0) (r₂ := 0) (hlt _ (List.mem_cons_self ..))
        (hlt _ (List.mem_cons_of_mem _ hm₂)) (by omega) (by omega) hp₁ hp₂).1
      exact hnot (this ▸ hm₂)
    · exact absurd h (by simp)

/-- A set bit of one of the sprite's rows `row` to `row + n - 1` is plotted at (x, y). -/
def RowsCover (s : State) (px py row n : Nat) (x : Fin 64) (y : Fin 32) : Prop :=
  ∃ k, row ≤ k ∧ k < row + n ∧ ∃ b, memRead s (s.I.toNat + k) = .ok b ∧
    ByteCovers s.params.drawEdge px (py + k) b spriteColumns x y

theorem spriteColumns_lt : ∀ col ∈ spriteColumns, col < 64 := by decide

/-- Drawing at most 32 rows: every pixel that a set bit is plotted at is toggled, no other pixel
changes, and the collision bit says whether one of them was on. -/
theorem drawRows_plotted {s : State} {px py n : Nat} : ∀ {row : Nat} {c c' : Canvas},
    row + n ≤ 32 → drawRows s px py n row c = .ok c' →
      c.Plotted c' (RowsCover s px py row n) := by
  induction n with
  | zero =>
    intro row c c' _ h
    simp only [drawRows, Except.ok.injEq] at h
    subst h
    exact Canvas.plotted_refl _ fun x y => by
      rintro ⟨k, h₁, h₂, _⟩
      omega
  | succ n ih =>
    intro row c c' hn h
    unfold drawRows at h
    split at h
    · next b hb =>
      split at h
      · next c₁ hc₁ =>
        have hhead := drawByte_plotted (by decide) spriteColumns_lt hc₁
        have htail := ih (by omega) h
        refine hhead.trans htail (fun x y => ?_) fun x y h₁ h₂ => ?_
        · constructor
          · rintro ⟨k, hk₁, hk₂, b', hb', hcov⟩
            by_cases hkr : k = row
            · subst hkr
              have : b' = b := by simpa [hb] using hb'.symm
              subst this
              exact .inl hcov
            · exact .inr ⟨k, by omega, by omega, b', hb', hcov⟩
          · rintro (hcov | ⟨k, hk₁, hk₂, rest⟩)
            · exact ⟨row, le_refl row, by omega, b, hb, hcov⟩
            · exact ⟨k, by omega, by omega, rest⟩
        · obtain ⟨col₁, hm₁, _, hp₁⟩ := h₁
          obtain ⟨k, hk₁, hk₂, _, _, col₂, hm₂, _, hp₂⟩ := h₂
          have := (plotCell_inj (spriteColumns_lt _ hm₁) (spriteColumns_lt _ hm₂) (by omega)
            (by omega) hp₁ hp₂).2
          omega
      · exact absurd h (by simp)
    · exact absurd h (by simp)

/-! ## When drawing stops -/

/-- Drawing a byte's columns stops only at a set bit that `DRAW_EDGE = undefined` leaves off the
grid. -/
theorem drawByte_eq_error {edge : DrawEdge} {px Y : Nat} {b : Byte} {cols : List Nat} :
    ∀ {c : Canvas} {f : Fault}, drawByte edge px Y b cols c = .error f ↔
      f = .undefined .drawOffscreen ∧
      ∃ col ∈ cols, b.getLsbD (7 - col) = true ∧ plotCell edge (px + col) Y = none := by
  induction cols with
  | nil => intro c f; simp [drawByte]
  | cons col cols ih =>
    intro c f
    unfold drawByte
    by_cases hb : b.getLsbD (7 - col) = true
    · rw [if_pos hb]
      cases hp : plot edge (px + col) Y c with
      | error f' =>
        obtain ⟨hn, rfl⟩ := plot_eq_error.1 hp
        simp only [Except.error.injEq]
        constructor
        · rintro rfl
          exact ⟨rfl, col, List.mem_cons_self .., hb, hn⟩
        · rintro ⟨rfl, _⟩
          rfl
      | ok c₁ =>
        have hsome : plotCell edge (px + col) Y ≠ none := by
          rcases plot_eq_ok.1 hp with ⟨h, _⟩ | ⟨x, y, h, _⟩ <;> simp [h]
        simp only [ih, List.mem_cons, exists_eq_or_imp, hsome, and_false, false_or]
    · rw [if_neg hb]
      simp only [ih, List.mem_cons, exists_eq_or_imp, hb, Bool.false_eq_true, false_and,
        false_or]

end Sys2Proof.Machine
end

