-- ==== Sys2Proof/Laws/Exec.lean ====
section
/-!
SUPPORT. The next state of each meaning that can stop, and the shape of a cycle, said once so that
later proofs unfold neither `exec` nor `step`.
-/

namespace Sys2Proof.Machine

theorem conclude_eq_next {r : Result State} {t : State} :
    conclude r = .next t ↔ r = .ok t := by
  cases r <;> simp [conclude]

theorem conclude_eq_fault {r : Result State} {f : Fault} :
    conclude r = .fault f ↔ r = .error f := by
  cases r <;> simp [conclude]

/-! ## The meanings that can stop -/

theorem execRet_eq_next {s t : State} :
    execRet s = .next t ↔ ∃ w u, s.pop = .ok (w, u) ∧ t = u.jumpTo w := by
  unfold execRet
  rcases s.pop with f | ⟨w, u⟩
  · simp
  · constructor
    · intro h
      exact ⟨w, u, rfl, (Host.Outcome.next.inj h).symm⟩
    · rintro ⟨w', u', h, rfl⟩
      simp only [Except.ok.injEq, Prod.mk.injEq] at h
      rw [h.1, h.2]

theorem execCall_eq_next {nnn : Addr12} {s t : State} :
    execCall nnn s = .next t ↔ ∃ u, s.push s.pc = .ok u ∧ t = u.jumpTo (zextAddr nnn) := by
  unfold execCall
  cases s.push s.pc <;> simp [eq_comm]

theorem execDrw_eq_next {x y n : Index16} {s t : State} :
    execDrw x y n s = .next t ↔
      ∃ c, drawRows s (s.drawX x) (s.drawY y) n.val 0 ⟨s.fb, false⟩ = .ok c ∧
        t = State.setV { s with fb := c.fb } VF (if c.collision then 1#8 else 0#8) := by
  unfold execDrw State.drawX State.drawY
  cases drawRows s ((s.getV x).toNat % 64) ((s.getV y).toNat % 32) n.val 0 ⟨s.fb, false⟩ with
  | error f => simp
  | ok c =>
    constructor
    · intro h
      exact ⟨c, rfl, (Host.Outcome.next.inj h).symm⟩
    · rintro ⟨c', h, rfl⟩
      rw [Except.ok.inj h]

theorem execDrw_eq_fault {x y n : Index16} {s : State} {f : Fault} :
    execDrw x y n s = .fault f ↔
      drawRows s (s.drawX x) (s.drawY y) n.val 0 ⟨s.fb, false⟩ = .error f := by
  unfold execDrw State.drawX State.drawY
  cases drawRows s ((s.getV x).toNat % 64) ((s.getV y).toNat % 32) n.val 0 ⟨s.fb, false⟩ <;> simp

theorem execLoad_eq_next {x : Index16} {s t : State} :
    execLoad x s = .next t ↔
      ∃ bs, loadBytes s s.I.toNat (x.val + 1) = .ok bs ∧
        t = { s with V := setRegisters s.V 0 bs } := by
  unfold execLoad
  cases loadBytes s s.I.toNat (x.val + 1) <;> simp [eq_comm]

theorem keyPressed_eq_ok {s : State} {v : Byte} {p : Bool} :
    keyPressed s v = .ok p ↔ ∃ k, keyIndex s.params.keyOob v = .ok k ∧ p = s.key[k.val] := by
  unfold keyPressed
  cases keyIndex s.params.keyOob v <;> simp [eq_comm]

theorem execSkp_eq_next {x : Index16} {s t : State} :
    execSkp x s = .next t ↔ ∃ p, keyPressed s (s.getV x) = .ok p ∧ t = s.skipIf p := by
  unfold execSkp
  cases keyPressed s (s.getV x) <;> simp [eq_comm]

theorem execSknp_eq_next {x : Index16} {s t : State} :
    execSknp x s = .next t ↔ ∃ p, keyPressed s (s.getV x) = .ok p ∧ t = s.skipIf (!p) := by
  unfold execSknp
  cases keyPressed s (s.getV x) <;> simp [eq_comm]

/-! ## A cycle -/

theorem decayAfter_eq_next {o : Host.Outcome State Fault Refusal} {t : State} :
    decayAfter o = .next t ↔ ∃ u, o = .next u ∧ t = u.decay := by
  cases o <;> simp [decayAfter, eq_comm]

/-- What a completed cycle is: fetch, advance, execute, decay (40_cycle.md R111). -/
theorem step_eq_next {s t : State} :
    step s = .next t ↔
      s.undef = none ∧ ∃ op u, fetch s = .ok op ∧ exec (decode op) s.advance = .next u ∧
        t = u.decay := by
  unfold step
  constructor
  · intro h
    split at h
    · exact absurd h (by simp)
    · next hu =>
      split at h
      · next op hop =>
        obtain ⟨u, hexec, ht⟩ := decayAfter_eq_next.1 h
        exact ⟨hu, op, u, hop, hexec, ht⟩
      · exact absurd h (by simp)
  · rintro ⟨hu, op, u, hop, hexec, rfl⟩
    rw [hu, hop]
    exact decayAfter_eq_next.2 ⟨u, hexec, rfl⟩

/-- The first step of a run (Host/Core.lean). -/
theorem core_run_succ {k : Nat} {s t : State} (h : step s = .next t) :
    Sys2Proof.core.run (k + 1) s = Sys2Proof.core.run k t := by
  have h' : Sys2Proof.core.step s = .next t := h
  simp only [Host.Core.run, h']

theorem fetch_eq_ok {s : State} {op : Word} :
    fetch s = .ok op ↔
      ∃ hi lo, memRead s s.pc.toNat = .ok hi ∧ memRead s (s.pc.toNat + 1) = .ok lo ∧
        op = combine hi lo := by
  unfold fetch
  cases memRead s s.pc.toNat with
  | error f => simp
  | ok hi =>
    cases memRead s (s.pc.toNat + 1) with
    | error f => simp
    | ok lo => simp [eq_comm]

/-- A fetch that stops does so with `MEM_OOB`. -/
theorem fetch_error {s : State} {f : Fault} (h : fetch s = .error f) :
    f = .undefined .memOob := by
  unfold fetch at h
  split at h
  · split at h
    · exact absurd h (by simp)
    · next f' hf =>
      simp only [Except.error.injEq] at h
      exact h ▸ (memRead_eq_error.1 hf).2
  · next f' hf =>
    simp only [Except.error.injEq] at h
    exact h ▸ (memRead_eq_error.1 hf).2

theorem toNat_decayTimer (t : Byte) : (decayTimer t).toNat = t.toNat - 1 := by
  unfold decayTimer
  split
  · next h => simp [h]
  · next h =>
    have : t.toNat ≠ 0 := fun e => h (BitVec.eq_of_toNat_eq (by simpa using e))
    bv_omega

end Sys2Proof.Machine
end

