-- ==== Sys2Proof/Laws/PerInstr.lean ====
section
/-!
SUPPORT. Facts about instructions as syntax, one lemma for each constructor of `Instr`.
`EncodesItsRow`: the canonical opcode of an instruction selects the instruction's row
(30_encoding.md R94).
-/

namespace Sys2Proof.Laws.EncodesItsRow

/-- The encoder's word selects the row of the opcode table. -/
def Statement (i : Instr) : Prop := encode i &&& i.row.mask = i.row.pattern

theorem cls : Statement .cls := rfl

theorem ret : Statement .ret := rfl

theorem jp (nnn : Addr12) : Statement (.jp nnn) := by
  simp only [Statement, encode, Instr.row, mask_F000, topNibble_encodeA]; rfl

theorem call (nnn : Addr12) : Statement (.call nnn) := by
  simp only [Statement, encode, Instr.row, mask_F000, topNibble_encodeA]; rfl

theorem seByte (x : Index16) (kk : Byte) : Statement (.seByte x kk) := by
  simp only [Statement, encode, Instr.row, mask_F000, topNibble_encodeXK]; rfl

theorem sneByte (x : Index16) (kk : Byte) : Statement (.sneByte x kk) := by
  simp only [Statement, encode, Instr.row, mask_F000, topNibble_encodeXK]; rfl

theorem seReg (x y : Index16) : Statement (.seReg x y) := by
  simp only [Statement, encode, Instr.row, mask_F000, topNibble_encodeXY]; rfl

theorem ldByte (x : Index16) (kk : Byte) : Statement (.ldByte x kk) := by
  simp only [Statement, encode, Instr.row, mask_F000, topNibble_encodeXK]; rfl

theorem addByte (x : Index16) (kk : Byte) : Statement (.addByte x kk) := by
  simp only [Statement, encode, Instr.row, mask_F000, topNibble_encodeXK]; rfl

theorem ldReg (x y : Index16) : Statement (.ldReg x y) := by
  simp only [Statement, encode, Instr.row, mask_F00F, topNibble_encodeXY, lowNibble_encodeXY]; rfl

theorem orReg (x y : Index16) : Statement (.orReg x y) := by
  simp only [Statement, encode, Instr.row, mask_F00F, topNibble_encodeXY, lowNibble_encodeXY]; rfl

theorem andReg (x y : Index16) : Statement (.andReg x y) := by
  simp only [Statement, encode, Instr.row, mask_F00F, topNibble_encodeXY, lowNibble_encodeXY]; rfl

theorem xorReg (x y : Index16) : Statement (.xorReg x y) := by
  simp only [Statement, encode, Instr.row, mask_F00F, topNibble_encodeXY, lowNibble_encodeXY]; rfl

theorem addReg (x y : Index16) : Statement (.addReg x y) := by
  simp only [Statement, encode, Instr.row, mask_F00F, topNibble_encodeXY, lowNibble_encodeXY]; rfl

theorem subReg (x y : Index16) : Statement (.subReg x y) := by
  simp only [Statement, encode, Instr.row, mask_F00F, topNibble_encodeXY, lowNibble_encodeXY]; rfl

theorem shr (x y : Index16) : Statement (.shr x y) := by
  simp only [Statement, encode, Instr.row, mask_F00F, topNibble_encodeXY, lowNibble_encodeXY]; rfl

theorem subn (x y : Index16) : Statement (.subn x y) := by
  simp only [Statement, encode, Instr.row, mask_F00F, topNibble_encodeXY, lowNibble_encodeXY]; rfl

theorem shl (x y : Index16) : Statement (.shl x y) := by
  simp only [Statement, encode, Instr.row, mask_F00F, topNibble_encodeXY, lowNibble_encodeXY]; rfl

theorem sneReg (x y : Index16) : Statement (.sneReg x y) := by
  simp only [Statement, encode, Instr.row, mask_F000, topNibble_encodeXY]; rfl

theorem ldI (nnn : Addr12) : Statement (.ldI nnn) := by
  simp only [Statement, encode, Instr.row, mask_F000, topNibble_encodeA]; rfl

theorem jpReg (nnn : Addr12) (x : Index16) : Statement (.jpReg nnn x) := by
  simp only [Statement, encode, Instr.row, mask_F000, topNibble_encodeA]; rfl

theorem rnd (x : Index16) (kk : Byte) : Statement (.rnd x kk) := by
  simp only [Statement, encode, Instr.row, mask_F000, topNibble_encodeXK]; rfl

theorem drw (x y n : Index16) : Statement (.drw x y n) := by
  simp only [Statement, encode, Instr.row, mask_F000, topNibble_encodeXY]; rfl

theorem skp (x : Index16) : Statement (.skp x) := by
  simp only [Statement, encode, Instr.row, mask_F00F, topNibble_encodeXK, lowNibble_encodeXK]; rfl

theorem sknp (x : Index16) : Statement (.sknp x) := by
  simp only [Statement, encode, Instr.row, mask_F00F, topNibble_encodeXK, lowNibble_encodeXK]; rfl

theorem ldVxDt (x : Index16) : Statement (.ldVxDt x) := by
  simp only [Statement, encode, Instr.row, mask_F0FF, topNibble_encodeXK, kkField_encodeXK]; rfl

theorem ldVxK (x : Index16) : Statement (.ldVxK x) := by
  simp only [Statement, encode, Instr.row, mask_F0FF, topNibble_encodeXK, kkField_encodeXK]; rfl

theorem ldDtVx (x : Index16) : Statement (.ldDtVx x) := by
  simp only [Statement, encode, Instr.row, mask_F0FF, topNibble_encodeXK, kkField_encodeXK]; rfl

theorem ldStVx (x : Index16) : Statement (.ldStVx x) := by
  simp only [Statement, encode, Instr.row, mask_F0FF, topNibble_encodeXK, kkField_encodeXK]; rfl

theorem addI (x : Index16) : Statement (.addI x) := by
  simp only [Statement, encode, Instr.row, mask_F0FF, topNibble_encodeXK, kkField_encodeXK]; rfl

theorem ldF (x : Index16) : Statement (.ldF x) := by
  simp only [Statement, encode, Instr.row, mask_F0FF, topNibble_encodeXK, kkField_encodeXK]; rfl

theorem ldB (x : Index16) : Statement (.ldB x) := by
  simp only [Statement, encode, Instr.row, mask_F0FF, topNibble_encodeXK, kkField_encodeXK]; rfl

theorem dump (x : Index16) : Statement (.dump x) := by
  simp only [Statement, encode, Instr.row, mask_F0FF, topNibble_encodeXK, kkField_encodeXK]; rfl

theorem load (x : Index16) : Statement (.load x) := by
  simp only [Statement, encode, Instr.row, mask_F0FF, topNibble_encodeXK, kkField_encodeXK]; rfl

theorem nop0 (low : Addr12) : Statement (.nop0 low) := by
  simp only [Statement, encode, Instr.row, mask_F000, topNibble_encodeA]; rfl

theorem nop8 (low : Addr12) : Statement (.nop8 low) := by
  simp only [Statement, encode, Instr.row, mask_F000, topNibble_encodeA]; rfl

theorem nopE (low : Addr12) : Statement (.nopE low) := by
  simp only [Statement, encode, Instr.row, mask_F000, topNibble_encodeA]; rfl

theorem nopF (low : Addr12) : Statement (.nopF low) := by
  simp only [Statement, encode, Instr.row, mask_F000, topNibble_encodeA]; rfl

end Sys2Proof.Laws.EncodesItsRow
end

