-- ==== Sys2Proof/Machine/Asm.lean ====
section
/-!
DEFINITION. The assembler text of 30_encoding.md R95 (column "mnemonic" of R94), as a disassembler
prints it. No behaviour depends on it (D16).
-/

namespace Sys2Proof.Machine

/-- A hexadecimal digit. -/
def hexDigit (d : Index16) : String :=
  ["0", "1", "2", "3", "4", "5", "6", "7", "8", "9", "A", "B", "C", "D", "E", "F"].getD d.val ""

/-- The low `n` hexadecimal digits of a number, most significant first. -/
def hexDigits : (n v : Nat) → String
  | 0, _ => ""
  | n + 1, v => hexDigits n (v / 16) ++ hexDigit (Fin.ofNat 16 v)

/-- `V0` to `VF`. -/
def asmReg (x : Index16) : String := "V" ++ hexDigit x

/-- A byte `0x00` to `0xFF`. -/
def asmByte (kk : Byte) : String := "0x" ++ hexDigits 2 kk.toNat

/-- A twelve-bit address `0x000` to `0xFFF`. -/
def asmAddr (nnn : Addr12) : String := "0x" ++ hexDigits 3 nnn.toNat

/-- A no-op: `NOP` and the word in hex. -/
def asmNop (op : Word) : String := "NOP 0x" ++ hexDigits 4 op.toNat

/-- A name and two operands. -/
def asmPair (name left right : String) : String := name ++ " " ++ left ++ ", " ++ right

/-- An instruction in the syntax of R95. -/
def asmInstr (i : Instr) : String :=
  match i with
  | .cls => "CLS"
  | .ret => "RET"
  | .jp nnn => "JP " ++ asmAddr nnn
  | .call nnn => "CALL " ++ asmAddr nnn
  | .seByte x kk => asmPair "SE" (asmReg x) (asmByte kk)
  | .sneByte x kk => asmPair "SNE" (asmReg x) (asmByte kk)
  | .seReg x y => asmPair "SE" (asmReg x) (asmReg y)
  | .ldByte x kk => asmPair "LD" (asmReg x) (asmByte kk)
  | .addByte x kk => asmPair "ADD" (asmReg x) (asmByte kk)
  | .ldReg x y => asmPair "LD" (asmReg x) (asmReg y)
  | .orReg x y => asmPair "OR" (asmReg x) (asmReg y)
  | .andReg x y => asmPair "AND" (asmReg x) (asmReg y)
  | .xorReg x y => asmPair "XOR" (asmReg x) (asmReg y)
  | .addReg x y => asmPair "ADD" (asmReg x) (asmReg y)
  | .subReg x y => asmPair "SUB" (asmReg x) (asmReg y)
  | .shr x y => asmPair "SHR" (asmReg x) (asmReg y)
  | .subn x y => asmPair "SUBN" (asmReg x) (asmReg y)
  | .shl x y => asmPair "SHL" (asmReg x) (asmReg y)
  | .sneReg x y => asmPair "SNE" (asmReg x) (asmReg y)
  | .ldI nnn => asmPair "LD" "I" (asmAddr nnn)
  | .jpReg nnn x => asmPair "JP" (asmReg x) (asmAddr nnn)
  | .rnd x kk => asmPair "RND" (asmReg x) (asmByte kk)
  | .drw x y n => asmPair "DRW" (asmReg x) (asmReg y) ++ ", " ++ n.val.repr
  | .skp x => "SKP " ++ asmReg x
  | .sknp x => "SKNP " ++ asmReg x
  | .ldVxDt x => asmPair "LD" (asmReg x) "DT"
  | .ldVxK x => asmPair "LD" (asmReg x) "K"
  | .ldDtVx x => asmPair "LD" "DT" (asmReg x)
  | .ldStVx x => asmPair "LD" "ST" (asmReg x)
  | .addI x => asmPair "ADD" "I" (asmReg x)
  | .ldF x => asmPair "LD" "F" (asmReg x)
  | .ldB x => asmPair "LD" "B" (asmReg x)
  | .dump x => asmPair "LD" "[I]" (asmReg x)
  | .load x => asmPair "LD" (asmReg x) "[I]"
  | .nop0 low => asmNop (encodeA 0x0#4 low)
  | .nop8 low => asmNop (encodeA 0x8#4 low)
  | .nopE low => asmNop (encodeA 0xE#4 low)
  | .nopF low => asmNop (encodeA 0xF#4 low)

/-- What a disassembler prints for an opcode (R95). -/
def disassemble (op : Word) : String := asmInstr (decode op)

end Sys2Proof.Machine
end

