-- ==== Sys2Proof/Tests/Slice0.lean ====
section
/-!
SUPPORT. Tests and witnesses. Expected results come from 95_test_vectors.md (L1 to L3, named in each
docstring) or by hand from the rules named. A `witness_…` theorem shows inputs that meet the
hypotheses of the obligation it is named after, at the ends of their ranges.
-/

open Sys2Proof Sys2Proof.Machine

namespace Sys2Proof.Tests

/-! ## Helpers -/

abbrev Out := Host.Outcome State Fault Refusal

/-- `s` with `op` stored where the next fetch reads. -/
def placed (op : Nat) (s : State) : State := s.withFetchWord 16 op

/-- One cycle on `op`. -/
def cyc (op : Nat) (s : State) : Out := step (placed op s)

/-- `s` with some registers set. -/
def regs (l : List (Index16 × Byte)) (s : State) : State := l.foldl (fun t p => t.setV p.1 p.2) s

/-- `s` with some bytes of memory set from an address on. -/
def bytes (a : Nat) (l : List Byte) (s : State) : State := { s with mem := s.mem.writeList a l }

/-- The state after construction with other parameters. -/
def under (p : Params) : State := { State.reset with params := p }

/-- A keypad on which the listed keys are pressed. -/
def pressing (l : List Index16) (s : State) : State :=
  { s with key := l.foldl (fun k i => k.set i.val true) s.key }

/-- What a next state shows. -/
def look {α : Type} (f : State → α) : Out → Option α
  | .next t => some (f t)
  | .fault _ => none
  | .refused _ => none

/-- Why an undefined outcome stops. -/
def reason : Out → Option Reason
  | .fault (.undefined r) => some r
  | .fault (.stuck _) => none
  | .next _ => none
  | .refused _ => none

/-- Some pixels of a state. -/
def pixels (l : List (Fin 64 × Fin 32)) (s : State) : List Bool :=
  l.map fun p => s.fb.pixel p.1 p.2

/-- A framebuffer with the listed pixels on. -/
def lit (l : List (Fin 64 × Fin 32)) : Framebuffer :=
  l.foldl (fun fb p => fb.toggle p.1 p.2) Framebuffer.blank

abbrev wrapMem : Params := { Params.default with memOob := .wrap12 }
abbrev lowKey : Params := { Params.default with keyOob := .lowNibble }
abbrev wrapDraw : Params := { Params.default with drawEdge := .wrap }
abbrev strictDraw : Params := { Params.default with drawEdge := .undefined }
abbrev resultWins : Params := { Params.default with vfAlias := .resultWins }
abbrev offsetV0 : Params := { Params.default with jumpOffsetReg := .v0 }

/-! ## WellFormed: an ill-formed term for each check -/

theorem test_wf_refuses_jpReg_other_x : (Instr.jpReg 0x230#12 3).wf = false := by decide
theorem test_wf_refuses_nop0_at_ret : (Instr.nop0 0x12E#12).wf = false := by decide
theorem test_wf_refuses_nop8_at_shl : (Instr.nop8 0x00E#12).wf = false := by decide
theorem test_wf_refuses_nop8_at_subn : (Instr.nop8 0x007#12).wf = false := by decide
theorem test_wf_refuses_nopE_at_sknp : (Instr.nopE 0x0A1#12).wf = false := by decide
theorem test_wf_refuses_nopF_at_load : (Instr.nopF 0x265#12).wf = false := by decide
theorem test_wf_accepts_undefined_slots :
    (Instr.nop0 0x123#12).wf = true ∧ (Instr.nop8 0x00F#12).wf = true ∧
    (Instr.nopE 0x00F#12).wf = true ∧ (Instr.nopF 0x00B#12).wf = true := by decide

/-! ## Decode: every constructor by a word written bit by bit (30_encoding.md R85 to R89) -/

theorem test_decode_control :
    decode 0b0000000011101110#16 = .ret ∧ decode 0b0001001000000100#16 = .jp 0x204#12 ∧
    decode 0b0010001000010000#16 = .call 0x210#12 ∧
    decode 0b0011000100000000#16 = .seByte 1 0x00#8 ∧
    decode 0b0100001000010001#16 = .sneByte 2 0x11#8 ∧
    decode 0b0101001101000000#16 = .seReg 3 4 ∧ decode 0b1001101010110111#16 = .sneReg 10 11 ∧
    decode 0b1011001000110000#16 = .jpReg 0x230#12 2 := by decide

theorem test_decode_alu_immediate :
    decode 0b0110101000000101#16 = .ldByte 10 0x05#8 ∧
    decode 0b0111000111111111#16 = .addByte 1 0xFF#8 ∧
    decode 0b1100001100001111#16 = .rnd 3 0x0F#8 := by decide

theorem test_decode_alu_register :
    decode 0b1000000100100000#16 = .ldReg 1 2 ∧ decode 0b1000000100100001#16 = .orReg 1 2 ∧
    decode 0b1000000100100010#16 = .andReg 1 2 ∧ decode 0b1000000100100011#16 = .xorReg 1 2 ∧
    decode 0b1000101010110100#16 = .addReg 10 11 ∧ decode 0b1000000000010101#16 = .subReg 0 1 ∧
    decode 0b1000000000010110#16 = .shr 0 1 ∧ decode 0b1000000000010111#16 = .subn 0 1 ∧
    decode 0b1000000000011110#16 = .shl 0 1 := by decide

theorem test_decode_display :
    decode 0b0000000011100000#16 = .cls ∧ decode 0b1101000100100101#16 = .drw 1 2 5 := by decide

theorem test_decode_index_memory :
    decode 0b1010001011110000#16 = .ldI 0x2F0#12 ∧ decode 0b1111010000011110#16 = .addI 4 ∧
    decode 0b1111000000101001#16 = .ldF 0 ∧ decode 0b1111101000110011#16 = .ldB 10 ∧
    decode 0b1111001001010101#16 = .dump 2 ∧ decode 0b1111001001100101#16 = .load 2 := by decide

theorem test_decode_keys_timers :
    decode 0b1110010110011110#16 = .skp 5 ∧ decode 0b1110010110100001#16 = .sknp 5 ∧
    decode 0b1111000100000111#16 = .ldVxDt 1 ∧ decode 0b1111001000001010#16 = .ldVxK 2 ∧
    decode 0b1111000000010101#16 = .ldDtVx 0 ∧
    decode 0b1111000000011000#16 = .ldStVx 0 := by decide

theorem test_decode_nops :
    decode 0b0000000100100011#16 = .nop0 0x123#12 ∧
    decode 0b1000000000001000#16 = .nop8 0x008#12 ∧
    decode 0b1110000000001111#16 = .nopE 0x00F#12 ∧
    decode 0b1111000000001011#16 = .nopF 0x00B#12 := by decide

/-- The other decode vectors of L2: ignored bits and the last undefined slots. -/
theorem test_decode_vectors :
    decode 0x0000#16 = .cls ∧ decode 0x0FF0#16 = .cls ∧ decode 0x012E#16 = .ret ∧
    decode 0x5121#16 = .seReg 1 2 ∧ decode 0x800F#16 = .nop8 0x00F#12 ∧
    decode 0xE00E#16 = .skp 0 ∧ decode 0xE0F1#16 = .sknp 0 ∧
    decode 0xF0FF#16 = .nopF 0x0FF#12 := by decide

/-- Fewer than two bytes are no instruction (R80); what follows two bytes is left over. -/
theorem test_decodeBytes :
    decodeBytes [] = .error .truncated ∧ decodeBytes [0x12#8] = .error .truncated ∧
    decodeBytes [0x12#8, 0x04#8, 0x99#8] = .ok (.jp 0x204#12, [0x99#8]) := by decide

/-- Bit 0 of a table word is the low bit of the opcode; bits above `nbits` are 0. -/
theorem test_decodeTableWord :
    decodeTableWord 16 0x8AB4 = some (.addReg 10 11) ∧
    decodeTableWord 16 0x38AB4 = some (.addReg 10 11) := by decide

/-- Canonical opcodes of R94. -/
theorem test_encode :
    encode .cls = 0x00E0#16 ∧ encode .ret = 0x00EE#16 ∧ encode (.skp 5) = 0xE59E#16 ∧
    encode (.sknp 5) = 0xE5A1#16 ∧ encode (.drw 1 2 5) = 0xD125#16 ∧
    encode (.nopF 0x0FF#12) = 0xF0FF#16 ∧ encodeBytes (.jp 0x204#12) = [0x12#8, 0x04#8] := by decide

/-- Assembly of the programs of L3 and of a no-op (R95). -/
theorem test_disassemble :
    disassemble 0xD125#16 = "DRW V1, V2, 5" ∧ disassemble 0x71FF#16 = "ADD V1, 0xFF" ∧
    disassemble 0xF265#16 = "LD V2, [I]" ∧ disassemble 0xB230#16 = "JP V2, 0x230" ∧
    disassemble 0x1204#16 = "JP 0x204" ∧ disassemble 0x0123#16 = "NOP 0x0123" := by decide

/-! ## One cycle of each instruction -/

/-- L2: clear-screen. -/
theorem test_cls :
    look (fun t => (pixels [(5, 7), (0, 0)] t, t.pc)) (cyc 0x0000 { State.reset with
      fb := lit [(5, 7)] }) = some ([false, false], 0x202#16) := by decide

/-- L2: RET at 0x212; the slot is not cleared. -/
theorem test_ret :
    look (fun t => (t.SP, t.pc, t.stack[0])) (cyc 0x00EE { State.reset with
      pc := 0x212#16, SP := 1#8, stack := State.reset.stack.set 0 0x206#16 })
      = some (0#8, 0x206#16, 0x206#16) := by decide

/-- L2: RET with an empty stack. -/
theorem test_ret_underflow : reason (cyc 0x00EE State.reset) = some .stackUnderflow := by decide

/-- L2: JP at 0x20A. -/
theorem test_jp :
    look (·.pc) (cyc 0x1204 { State.reset with pc := 0x20A#16 }) = some 0x204#16 := by decide

/-- L2: CALL at 0x204. -/
theorem test_call :
    look (fun t => (t.SP, t.pc, t.stack[0])) (cyc 0x2210 { State.reset with pc := 0x204#16 })
      = some (1#8, 0x210#16, 0x206#16) := by decide

/-- L2: CALL with a full stack. -/
theorem test_call_overflow :
    reason (cyc 0x2300 { State.reset with SP := 16#8 }) = some .stackOverflow := by decide

/-- L2: SE V1, 0x00 at 0x208 skips; SE V1, 0x01 does not. -/
theorem test_seByte :
    look (·.pc) (cyc 0x3100 { State.reset with pc := 0x208#16 }) = some 0x20C#16 ∧
    look (·.pc) (cyc 0x3101 State.reset) = some 0x202#16 := by decide

/-- L2: a skip at 0xFFE leaves pc = 0x1002. -/
theorem test_seByte_past_memory :
    look (·.pc) (cyc 0x3000 { State.reset with pc := 0xFFE#16 }) = some 0x1002#16 := by decide

/-- L2: SNE V2, 0x11 at 0x300 skips; SNE V2, 0x10 does not. -/
theorem test_sneByte :
    look (·.pc) (cyc 0x4211 (regs [(2, 0x10)] { State.reset with pc := 0x300#16 }))
      = some 0x304#16 ∧
    look (·.pc) (cyc 0x4210 (regs [(2, 0x10)] State.reset)) = some 0x202#16 := by decide

/-- L2: SE V3, V4, with the low nibble ignored. -/
theorem test_seReg :
    look (·.pc) (cyc 0x534F (regs [(3, 7), (4, 7)] State.reset)) = some 0x204#16 ∧
    look (·.pc) (cyc 0x5340 (regs [(3, 7), (4, 8)] State.reset)) = some 0x202#16 := by decide

/-- L2: SNE V3, V4; SNE of a register with itself never skips. -/
theorem test_sneReg :
    look (·.pc) (cyc 0x9340 (regs [(3, 7), (4, 8)] State.reset)) = some 0x204#16 ∧
    look (·.pc) (cyc 0x9330 (regs [(3, 7)] State.reset)) = some 0x202#16 := by decide

/-- L2: jump-with-offset by Vx, and without a wrap. -/
theorem test_jpReg :
    look (·.pc) (cyc 0xB230 (regs [(2, 0x10)] State.reset)) = some 0x240#16 ∧
    look (·.pc) (cyc 0xBFFF (regs [(15, 0xFF)] State.reset)) = some 0x10FE#16 := by decide

/-- L2: jump-with-offset by V0. -/
theorem test_jpReg_v0 :
    look (·.pc) (cyc 0xB230 (regs [(2, 0x10), (0, 1)] (under offsetV0))) = some 0x231#16 := by
  decide

/-- L2: LD VF, 0x77. -/
theorem test_ldByte : look (·.getV VF) (cyc 0x6F77 State.reset) = some 0x77#8 := by decide

/-- L2: add-immediate wraps and leaves VF. -/
theorem test_addByte :
    look (fun t => (t.getV 0, t.getV VF)) (cyc 0x7001 (regs [(0, 0xFF), (15, 0x42)] State.reset))
      = some (0x00#8, 0x42#8) := by decide

/-- L2: LD V1, V2. -/
theorem test_ldReg :
    look (·.getV 1) (cyc 0x8120 (regs [(2, 0x33)] State.reset)) = some 0x33#8 := by decide

/-- L2: OR leaves VF. -/
theorem test_orReg :
    look (fun t => (t.getV 1, t.getV VF))
      (cyc 0x8121 (regs [(1, 0x0F), (2, 0xF0), (15, 0x5A)] State.reset))
      = some (0xFF#8, 0x5A#8) := by decide

/-- L2: AND. -/
theorem test_andReg :
    look (·.getV 1) (cyc 0x8122 (regs [(1, 0x3C), (2, 0x0F)] State.reset)) = some 0x0C#8 := by
  decide

/-- L2: XOR. -/
theorem test_xorReg :
    look (·.getV 1) (cyc 0x8123 (regs [(1, 0x3C), (2, 0x0F)] State.reset)) = some 0x33#8 := by
  decide

/-- L2: ADD with carry; y = F reads the old VF. -/
theorem test_addReg :
    look (fun t => (t.getV 0, t.getV VF)) (cyc 0x8014 (regs [(0, 0xFF), (1, 0xFF)] State.reset))
      = some (0xFE#8, 1#8) ∧
    look (fun t => (t.getV 0, t.getV VF)) (cyc 0x80F4 (regs [(0, 1), (15, 0xFF)] State.reset))
      = some (0x00#8, 1#8) := by decide

/-- L2: ADD VF, V1 under both values of `VF_ALIAS`. -/
theorem test_addReg_vf :
    look (·.getV VF) (cyc 0x8F14 (regs [(15, 0x80), (1, 0x80)] State.reset)) = some 1#8 ∧
    look (·.getV VF) (cyc 0x8F14 (regs [(15, 0x80), (1, 0x80)] (under resultWins)))
      = some 0x00#8 := by decide

/-- L2: SUB with a borrow, and of equal values (strict). -/
theorem test_subReg :
    look (fun t => (t.getV 0, t.getV VF)) (cyc 0x8015 (regs [(0, 3), (1, 5)] State.reset))
      = some (0xFE#8, 0#8) ∧
    look (fun t => (t.getV 0, t.getV VF)) (cyc 0x8015 (regs [(0, 7), (1, 7), (15, 1)] State.reset))
      = some (0x00#8, 0#8) := by decide

/-- L2: SUB VF, V1 under both values of `VF_ALIAS`. -/
theorem test_subReg_vf :
    look (·.getV VF) (cyc 0x8F15 (regs [(15, 0x10), (1, 3)] State.reset)) = some 1#8 ∧
    look (·.getV VF) (cyc 0x8F15 (regs [(15, 0x10), (1, 3)] (under resultWins)))
      = some 0x0D#8 := by decide

/-- L2: SHR shifts Vy, whatever Vx was. -/
theorem test_shr :
    look (fun t => (t.getV 0, t.getV VF)) (cyc 0x8016 (regs [(0, 0xAA), (1, 0x05)] State.reset))
      = some (0x02#8, 1#8) := by decide

/-- L2: SHR VF, V0 under both values of `VF_ALIAS`. -/
theorem test_shr_vf :
    look (·.getV VF) (cyc 0x8F06 (regs [(0, 0x04)] State.reset)) = some 0#8 ∧
    look (·.getV VF) (cyc 0x8F06 (regs [(0, 0x04)] (under resultWins))) = some 0x02#8 := by decide

/-- L2: SUBN without and with a borrow. -/
theorem test_subn :
    look (fun t => (t.getV 0, t.getV VF)) (cyc 0x8017 (regs [(0, 3), (1, 5)] State.reset))
      = some (0x02#8, 1#8) ∧
    look (fun t => (t.getV 0, t.getV VF)) (cyc 0x8017 (regs [(0, 5), (1, 3)] State.reset))
      = some (0xFE#8, 0#8) := by decide

/-- L2: SHL shifts Vy. -/
theorem test_shl :
    look (fun t => (t.getV 0, t.getV VF)) (cyc 0x801E (regs [(1, 0x81)] State.reset))
      = some (0x02#8, 1#8) ∧
    look (fun t => (t.getV 0, t.getV VF)) (cyc 0x801E (regs [(1, 0x40)] State.reset))
      = some (0x80#8, 0#8) := by decide

/-- L2: the random byte 0xAB masked. -/
theorem test_rnd :
    look (fun t => (t.getV 3, t.rnd)) (cyc 0xC30F (State.reset.offerRandom 0xAB))
      = some (0x0B#8, []) := by decide

/-- A mask of 0 gives 0 whatever the free byte is (R172). -/
theorem test_rnd_free :
    look (fun t => (t.getV 3, t.rndCount)) (execRnd 3 0x00#8 State.reset) = some (0x00#8, 1) := by
  change some (Config.randomByte 0 &&& 0x00#8, 1) = _
  rw [BitVec.and_zero]

/-- L2: a draw over the right edge under `clip` (two pixels not drawn), `wrap` and `undefined`. -/
theorem test_drw_edge :
    look (fun t => (pixels [(62, 0), (63, 0), (0, 0), (0, 1)] t, t.getV VF))
      (cyc 0xD011 (regs [(0, 0x3E)] { State.reset with I := 0x050#16 }))
      = some ([true, true, false, false], 0#8) ∧
    look (pixels [(62, 0), (63, 0), (0, 0), (1, 0), (2, 0)])
      (cyc 0xD011 (regs [(0, 0x3E)] { under wrapDraw with I := 0x050#16 }))
      = some [true, true, true, true, false] ∧
    reason (cyc 0xD011 (regs [(0, 0x3E)] { under strictDraw with I := 0x050#16 }))
      = some .drawOffscreen := by decide

/-- L2: the draw position of VF is latched; L1-7: a redraw of one row erases it and sets VF. -/
theorem test_drw_collision :
    look (fun t => (pixels [(0, 5), (3, 5), (0, 0)] t, t.getV VF))
      (cyc 0xD0F1 (regs [(15, 5)] { State.reset with I := 0x050#16 }))
      = some ([true, true, false], 0#8) ∧
    look (fun t => (pixels [(0, 0), (3, 0)] t, t.getV VF))
      (cyc 0xD001 { State.reset with I := 0x050#16, fb := lit [(0, 0), (1, 0), (2, 0), (3, 0)] })
      = some ([false, false], 1#8) := by decide

/-- L2: SKP with the key up and down, and the low-nibble slot. -/
theorem test_skp :
    look (·.pc) (cyc 0xE59E (regs [(5, 7)] State.reset)) = some 0x202#16 ∧
    look (·.pc) (cyc 0xE50E (regs [(5, 7)] (pressing [7] State.reset))) = some 0x204#16 := by decide

/-- L2: SKP with Vx = 0x10 under both values of `KEY_OOB`. -/
theorem test_skp_oob :
    reason (cyc 0xE59E (regs [(5, 0x10)] State.reset)) = some .keyOob ∧
    look (·.pc) (cyc 0xE59E (regs [(5, 0x10)] (pressing [0] (under lowKey))))
      = some 0x204#16 := by decide

/-- L2: SKNP with the key up and down. -/
theorem test_sknp :
    look (·.pc) (cyc 0xE5A1 (regs [(5, 7)] State.reset)) = some 0x204#16 ∧
    look (·.pc) (cyc 0xE5A1 (regs [(5, 7)] (pressing [7] State.reset))) = some 0x202#16 := by decide

/-- L2: LD V1, DT reads DT before this cycle's decay. -/
theorem test_ldVxDt :
    look (fun t => (t.getV 1, t.DT)) (cyc 0xF107 { State.reset with DT := 9#8 })
      = some (9#8, 8#8) := by decide

/-- L2: wait-for-key without and with keys. -/
theorem test_ldVxK :
    look (fun t => (t.getV 2, t.pc, t.DT)) (cyc 0xF20A { State.reset with
      pc := 0x206#16, DT := 2#8 }) = some (0#8, 0x206#16, 1#8) ∧
    look (fun t => (t.getV 2, t.pc)) (cyc 0xF20A (pressing [9, 7] { State.reset with
      pc := 0x206#16 })) = some (7#8, 0x208#16) := by decide

/-- L2: LD DT, V0 before this cycle's decay. -/
theorem test_ldDtVx :
    look (·.DT) (cyc 0xF015 (regs [(0, 3)] State.reset)) = some 2#8 ∧
    look (·.DT) (cyc 0xF015 { State.reset with DT := 7#8 }) = some 0#8 := by decide

/-- L2: LD ST, V0 before this cycle's decay. -/
theorem test_ldStVx :
    look (·.ST) (cyc 0xF018 (regs [(0, 3)] State.reset)) = some 2#8 ∧
    look (·.ST) (cyc 0xF018 (regs [(0, 1)] State.reset)) = some 0#8 := by decide

/-- L1-3: set-index. -/
theorem test_ldI :
    look (fun t => (t.I, t.pc, t.DT)) (cyc 0xA2F0 { State.reset with DT := 3#8 })
      = some (0x2F0#16, 0x202#16, 2#8) := by decide

/-- L2: add-to-index, modulo 65536. -/
theorem test_addI :
    look (·.I) (cyc 0xF41E (regs [(4, 0x10)] { State.reset with I := 0x300#16 }))
      = some 0x310#16 ∧
    look (·.I) (cyc 0xF11E (regs [(1, 1)] { State.reset with I := 0xFFFF#16 }))
      = some 0x0000#16 := by decide

/-- L2: font-character-address of 5 and of 0xFF. -/
theorem test_ldF :
    look (·.I) (cyc 0xF029 (regs [(0, 5)] State.reset)) = some 0x069#16 ∧
    look (·.I) (cyc 0xF029 (regs [(0, 0xFF)] State.reset)) = some 0x54B#16 := by decide

/-- L1-6: BCD of 157. -/
theorem test_ldB :
    look (fun t => (t.mem, t.I)) (execLdB 0 (regs [(0, 157)] { State.reset with I := 0x300#16 }))
      = some ([(0x300, 1#8), (0x301, 5#8), (0x302, 7#8)], 0x300#16) := by decide

/-- L2: BCD at 0xFFE under both values of `MEM_OOB`. -/
theorem test_ldB_oob :
    reason (cyc 0xF033 (regs [(0, 1)] { State.reset with I := 0xFFE#16 })) = some .memOob ∧
    look (fun t => t.mem.read 0) (cyc 0xF033 (regs [(0, 1)] { under wrapMem with I := 0xFFE#16 }))
      = some 1#8 := by decide

/-- L2: register-dump of V0 to V2. -/
theorem test_dump :
    look (fun t => (t.mem, t.I))
      (execDump 2 (regs [(0, 1), (1, 2), (2, 3), (3, 4)] { State.reset with I := 0x300#16 }))
      = some ([(0x300, 1#8), (0x301, 2#8), (0x302, 3#8)], 0x300#16) := by decide

/-- L2: register-dump at the end of memory. -/
theorem test_dump_end :
    look (fun t => t.mem.read 0xFFF) (cyc 0xF055 (regs [(0, 9)] { State.reset with I := 0xFFF#16 }))
      = some 9#8 ∧
    reason (cyc 0xF155 { State.reset with I := 0xFFF#16 }) = some .memOob := by decide

/-- L2: register-load of V0 to V2 leaves V3. -/
theorem test_load :
    look (fun t => ([t.getV 0, t.getV 1, t.getV 2, t.getV 3], t.I))
      (cyc 0xF265 (bytes 0x300 [1, 5, 7, 9] (regs [(3, 0x44)] { State.reset with I := 0x300#16 })))
      = some ([1#8, 5#8, 7#8, 0x44#8], 0x300#16) := by decide

/-- L2: register-load of all sixteen. -/
theorem test_load_vf :
    look (·.getV VF) (cyc 0xFF65 (bytes 0x30F [0xAB] { State.reset with I := 0x300#16 }))
      = some 0xAB#8 := by decide

/-- L2: the no-ops advance pc and decay the timers. -/
theorem test_nops :
    look (fun t => (t.pc, t.DT, t.ST)) (cyc 0x0123 { State.reset with DT := 5#8, ST := 1#8 })
      = some (0x202#16, 4#8, 0#8) ∧
    look (fun t => (t.pc, t.V)) (cyc 0x8008 State.reset) = some (0x202#16, State.reset.V) ∧
    look (·.pc) (cyc 0xE00F State.reset) = some 0x202#16 ∧
    look (·.pc) (cyc 0xF0FF State.reset) = some 0x202#16 := by decide

/-! ## The cycle, memory and the host's side -/

/-- L2: a fetch at 0xFFF, and a marked state. -/
theorem test_fetch_stops :
    reason (step { State.reset with pc := 0xFFF#16 }) = some .memOob ∧
    reason (step { State.reset with undef := some .memOob }) = none := by decide

/-- R55: with the defaults, construction gives the reset state, whose empty list of memory cells
reads as R53 to R55 say. -/
theorem test_construct_default :
    State.construct Params.default (Vector.mk Config.font.toArray rfl) = State.reset := by decide

/-- L1-4: the video port of a blank screen, and cell 7 × 64 + 5 of pixel (5, 7). -/
theorem test_video :
    State.video State.reset 453 = 0x00000000#32 ∧
    State.video { State.reset with fb := lit [(5, 7)] } 453 = 0xFFFFFFFF#32 := by decide

/-- R252: an image one byte too long is refused. -/
theorem test_loadRom_too_long :
    State.loadRom State.reset (some (List.replicate 3585 0x00#8)) = .refused .romTooLong := by
  rw [State.loadRom, if_neg]
  rw [List.length_replicate]
  decide

/-! ## Witnesses: encoding -/

theorem witness_EncodeThenDecodeGivesInstruction :
    (Instr.jpReg 0xFFF#12 15).wf = true ∧ (Instr.nop8 0xFF8#12).wf = true ∧
    (Instr.drw 15 15 15).wf = true := by decide

theorem witness_OpcodeSelectsRowByMask :
    (Instr.sknp 5).isNop = false ∧ 0xE5F1#16 &&& (Instr.sknp 5).row.mask = (Instr.sknp 5).row.pattern ∧
    ∀ i : Instr, i.isNop = false → 0xF00B#16 &&& i.row.mask ≠ i.row.pattern := by
  refine ⟨by decide, by decide, fun i h => ?_⟩
  cases i <;> first | (simp only [Instr.row]; decide) | cases h

/-- One opcode for each of the four families, two for the slots on both sides of `8xyE`. -/
theorem witness_UndefinedSlotIsNoOpCycle :
    State.reset.undef = none ∧ fetch (placed 0xF00B State.reset) = .ok 0xF00B#16 ∧
    UndefinedSlot 0x0123#16 ∧ UndefinedSlot 0x8008#16 ∧ UndefinedSlot 0x800F#16 ∧
    UndefinedSlot 0xE00F#16 ∧ UndefinedSlot 0xF00B#16 := by
  refine ⟨rfl, by decide, ?_, ?_, ?_, ?_, ?_⟩ <;> unfold UndefinedSlot <;> decide

/-- For each clause a pair that differs in every bit R92 names. -/
theorem witness_IgnoredBitsHaveNoEffect :
    (0x0000#16).extractLsb' 12 4 = (0x0FF0#16).extractLsb' 12 4 ∧
    (0x0000#16).extractLsb' 0 4 = 0x0#4 ∧ (0x0FF0#16).extractLsb' 0 4 = 0x0#4 ∧
    (0x000E#16).extractLsb' 0 4 = (0x0FFE#16).extractLsb' 0 4 ∧
    (0x5120#16).extractLsb' 12 4 = 0x5#4 ∧
    (0x5120#16).extractLsb' 4 8 = (0x512F#16).extractLsb' 4 8 ∧
    (0x9AB0#16).extractLsb' 12 4 = 0x9#4 ∧
    (0x9AB0#16).extractLsb' 4 8 = (0x9ABF#16).extractLsb' 4 8 ∧
    (0xE50E#16).extractLsb' 8 4 = (0xE5FE#16).extractLsb' 8 4 ∧
    (0xE50E#16).extractLsb' 0 4 = 0xE#4 ∧ (0xE5FE#16).extractLsb' 0 4 = 0xE#4 ∧
    (0xE501#16).extractLsb' 0 4 = (0xE5F1#16).extractLsb' 0 4 := by decide

/-! ## Witnesses: reset, invariant, cycle -/

/-- The ends of the font table and of memory: the hypothesis holds up to 0xFFF. -/
theorem witness_ResetLeavesConstructedState :
    (0xFFF : Nat) ≤ 0xFFF ∧ State.reset.mem.read 0x04F = 0x00#8 ∧
    State.reset.mem.read 0x050 = 0xF0#8 ∧ State.reset.mem.read 0x09F = 0x80#8 ∧
    State.reset.mem.read 0x0A0 = 0x00#8 := by decide

/-- A store at the end of memory, a call into the last slot, a return from the first. -/
theorem witness_EveryCycleKeepsInvariant :
    (∃ s t, s.Inv ∧ step s = .next t ∧ t.mem.read 0xFFF = 9#8) ∧
    (∃ s t, s.Inv ∧ step s = .next t ∧ t.SP = 16#8) ∧
    ∃ s t, s.Inv ∧ step s = .next t ∧ s.SP = 1#8 ∧ t.SP = 0#8 :=
  ⟨⟨placed 0xF055 (regs [(0, 9)] { State.reset with I := 0xFFF#16 }), _, ⟨by decide, by decide⟩, rfl,
      by decide⟩,
    ⟨placed 0x2300 { State.reset with SP := 15#8 }, _, ⟨by decide, by decide⟩, rfl, by decide⟩,
    placed 0x00EE { State.reset with SP := 1#8 }, _, ⟨by decide, by decide⟩, rfl, by decide, by decide⟩

theorem witness_HostRunsKeepInvariant :
    ∃ s, launch wrapMem (Vector.replicate 80 0xFF#8) [0x12#8, 0x00#8] (Vector.replicate 16 true) =
      .next s ∧
      (s.runHost [.cycle, .keys (Vector.replicate 16 false), .random 7, .cycle]).pc = 0x200#16 :=
  ⟨_, rfl, by decide⟩

/-- At 0x200, and at 0xFFF under `wrap12`. -/
theorem witness_CycleRunsDecodedInstruction :
    (State.reset.undef = none ∧
      memRead (placed 0x1234 State.reset) 0x200 = .ok 0x12#8 ∧
      memRead (placed 0x1234 State.reset) 0x201 = .ok 0x34#8 ∧
      decodeBytes [0x12#8, 0x34#8] = .ok (.jp 0x234#12, [])) ∧
    memRead (placed 0x1234 { under wrapMem with pc := 0xFFF#16 }) 0xFFF = .ok 0x12#8 ∧
    memRead (placed 0x1234 { under wrapMem with pc := 0xFFF#16 }) 0x1000 = .ok 0x34#8 := by decide

/-- The first and the last cell pair that a fetch may read. -/
theorem witness_FetchIsBigEndian :
    memRead { State.reset with pc := 0x050#16 } 0x050 = .ok 0xF0#8 ∧
    memRead { State.reset with pc := 0x050#16 } 0x051 = .ok 0x90#8 ∧
    memRead (placed 0x1234 { State.reset with pc := 0xFFE#16 }) 0xFFE = .ok 0x12#8 ∧
    memRead (placed 0x1234 { State.reset with pc := 0xFFE#16 }) 0xFFF = .ok 0x34#8 := by decide

theorem witness_FetchBeyondMemoryStops :
    ({ State.reset with pc := 0x0FFF#16 } : State).undef = none ∧
    State.reset.params.memOob = .undefined ∧ 0xFFF ≤ (0x0FFF#16).toNat ∧
    reason (step { State.reset with pc := 0x0FFF#16 }) = some .memOob ∧
    0xFFF ≤ (0xFFFF#16).toNat ∧
    reason (step { State.reset with pc := 0xFFFF#16 }) = some .memOob := by decide

/-! ## Witnesses: memory -/

/-- 0xFFF and 0x1000 under both modes. -/
theorem witness_MemoryAccessByAddress :
    (bytes 0 [7] (under wrapMem)).mem.wf = true ∧
    memRead (bytes 0xFFF [7] State.reset) 0xFFF = .ok 7#8 ∧
    memRead (bytes 0 [7] (under wrapMem)) 0x1000 = .ok 7#8 ∧
    memRead (bytes 0xFFF [7] (under wrapMem)) 0x1FFF = .ok 7#8 ∧
    State.reset.params.memOob = .undefined ∧
    memRead State.reset 0x1000 = .error (.undefined .memOob) := by decide

theorem witness_EqualContentsMeanEqualMemory :
    Memory.wf [(0x050, 0x00#8), (0xFFF, 0x01#8)] = true ∧
    Memory.wf ((Memory.write [] 0xFFF 0x01#8).write 0x050 0x00#8) = true ∧
    (Memory.write [] 0xFFF 0x01#8).write 0x050 0x00#8 = [(0x050, 0x00#8), (0xFFF, 0x01#8)] := by
  decide

/-! ## Witnesses: display -/

theorem witness_ClearScreenTurnsEveryPixelOff :
    (0x0FF0#16).extractLsb' 12 4 = 0x0#4 ∧ (0x0FF0#16).extractLsb' 0 4 = 0x0#4 := by decide

/-- Glyph 0's first row drawn from column 60 under `undefined`, so that its set bits end in the last
column of the grid. -/
def lastColumn : State := regs [(0, 0x3C)] { under strictDraw with I := 0x050#16 }

/-- Glyph 0's first row drawn from column 63 under `clip`. -/
def overEdge : State := regs [(0, 0x3F)] { State.reset with I := 0x050#16 }

theorem lastColumn_on_grid : ¬ lastColumn.RowOffGrid 0 1 0 := by
  rintro ⟨c, hc, ⟨b, hb, hbit⟩, hoff⟩
  have h : memRead lastColumn (lastColumn.I.toNat + 0) = .ok 0xF0#8 := by decide
  rw [h, Except.ok.injEq] at hb
  subst hb
  interval_cases c <;> revert hbit hoff <;> decide

/-- No row; two rows up to the end of memory; over the edge under `wrap`; the last column of the
grid under `undefined`. -/
theorem witness_DrawTogglesCoveredPixels :
    State.Defined { State.reset with I := 0xFFFF#16 } (.drw 0 0 0) ∧
    State.Defined { State.reset with I := 0xFFE#16 } (.drw 0 0 2) ∧
    State.Defined (regs [(0, 0x3F)] { under wrapDraw with I := 0x050#16 }) (.drw 0 0 15) ∧
    lastColumn.params.drawEdge = .undefined ∧ lastColumn.Defined (.drw 0 1 1) := by
  refine ⟨⟨fun k hk => absurd hk (Nat.not_lt_zero k), fun h => absurd h (by decide)⟩,
    ⟨by unfold State.Accessible; decide, fun h => absurd h (by decide)⟩,
    ⟨by unfold State.Accessible; decide, fun h => absurd h (by decide)⟩, by decide,
    ⟨by unfold State.Accessible; decide, fun _ r hr => ?_⟩⟩
  rw [Nat.lt_one_iff.1 hr]
  exact lastColumn_on_grid

/-- For each clause: a covered pixel under each `DRAW_EDGE`, one that `clip` leaves uncovered, a
covered pixel that is on, and a screen on which none is. -/
theorem witness_DrawTogglesCoveredPixels_clauses :
    overEdge.Covers 0 1 1 63 0 ∧
    State.Covers (regs [(0, 0x3F)] { under wrapDraw with I := 0x050#16 }) 0 1 1 0 0 ∧
    lastColumn.Covers 0 1 1 63 0 ∧ ¬ overEdge.Covers 0 1 1 0 0 ∧
    (State.Covers { overEdge with fb := lit [(63, 0)] } 0 1 1 63 0 ∧
      (lit [(63, 0)]).pixel 63 0 = true) ∧
    ¬ ∃ col row, overEdge.Covers 0 1 1 col row ∧ overEdge.fb.pixel col row = true := by
  refine ⟨⟨0, 0, by decide, by decide, ⟨0xF0#8, by decide, by decide⟩, by decide, by decide⟩,
    ⟨0, 1, by decide, by decide, ⟨0xF0#8, by decide, by decide⟩, by decide, by decide⟩,
    ⟨0, 3, by decide, by decide, ⟨0xF0#8, by decide, by decide⟩, by decide, by decide⟩, ?_,
    ⟨⟨0, 0, by decide, by decide, ⟨0xF0#8, by decide, by decide⟩, by decide, by decide⟩,
      by decide⟩, ?_⟩
  · rintro ⟨r, c, _, _, _, hx, _⟩
    rw [show overEdge.drawX 0 = 63 by decide] at hx
    exact absurd hx (by simp)
  · rintro ⟨col, row, _, hon⟩
    rw [show overEdge.fb = Framebuffer.blank from rfl, Framebuffer.pixel_blank] at hon
    cases hon

/-- Each kind of stop, at row 0 and at row 2. -/
theorem witness_DrawStopsAtFirstUndefinedRow :
    reason (exec (.drw 0 0 1) { State.reset with I := 0x1000#16 }) = some .memOob ∧
    reason (exec (.drw 0 0 3) { State.reset with I := 0xFFE#16 }) = some .memOob ∧
    reason (exec (.drw 0 1 1) (regs [(0, 0x3D)] { under strictDraw with I := 0x050#16 }))
      = some .drawOffscreen ∧
    reason (exec (.drw 0 1 3) (regs [(1, 30)] { under strictDraw with I := 0x050#16 }))
      = some .drawOffscreen := by decide

/-! ## Witnesses: control flow -/

/-- SP at 1 and 16 (defined), 0 and 17 (stops). -/
theorem witness_ReturnPopsStack :
    (0x012E#16).extractLsb' 12 4 = 0x0#4 ∧ (0x012E#16).extractLsb' 0 4 = 0xE#4 ∧
    look (·.SP) (exec .ret { State.reset with SP := 1#8 }) = some 0#8 ∧
    look (·.SP) (exec .ret { State.reset with SP := 16#8 }) = some 15#8 ∧
    reason (exec .ret { State.reset with SP := 0#8 }) = some .stackUnderflow ∧
    reason (exec .ret { State.reset with SP := 17#8 }) = some .stackOverflow := by decide

/-- SP at 0 and 15 (defined), 16 and 17 (stops). -/
theorem witness_CallPushesReturnAddress :
    (0x2FFF#16).extractLsb' 12 4 = 0x2#4 ∧
    look (·.SP) (exec (.call 0xFFF#12) { State.reset with SP := 0#8 }) = some 1#8 ∧
    look (·.SP) (exec (.call 0xFFF#12) { State.reset with SP := 15#8 }) = some 16#8 ∧
    reason (exec (.call 0xFFF#12) { State.reset with SP := 16#8 }) = some .stackOverflow ∧
    reason (exec (.call 0xFFF#12) { State.reset with SP := 17#8 }) = some .stackOverflow := by decide

/-- A call into the last slot. -/
theorem witness_ReturnResumesAfterCall :
    ∃ t, exec (.call 0x300#12) { State.reset with SP := 15#8 } = .next t ∧
      ({ State.reset with stack := t.stack, SP := t.SP } : State).SP = 16#8 :=
  ⟨_, rfl, rfl⟩

theorem witness_JumpSetsProgramCounter : (0x1FFF#16).extractLsb' 12 4 = 0x1#4 := by decide

theorem witness_SkipsCompareAndAdvance :
    (0x3100#16).extractLsb' 12 4 = 0x3#4 ∧ (0x4211#16).extractLsb' 12 4 = 0x4#4 ∧
    (0x534F#16).extractLsb' 12 4 = 0x5#4 ∧ (0x9AB7#16).extractLsb' 12 4 = 0x9#4 := by decide

theorem witness_JumpWithOffsetAddsRegister :
    (0xBFFF#16).extractLsb' 12 4 = 0xB#4 ∧ State.reset.params.jumpOffsetReg = .vx ∧
    (under offsetV0).params.jumpOffsetReg = .v0 := by decide

/-! ## Witnesses: register arithmetic and logic -/

theorem witness_ImmediateFormsWriteVx :
    (0x6F77#16).extractLsb' 12 4 = 0x6#4 ∧ (0x7FFF#16).extractLsb' 12 4 = 0x7#4 := by decide

theorem witness_RegisterLogicWritesVx :
    (0x8120#16).extractLsb' 12 4 = 0x8#4 ∧ (0x8120#16).extractLsb' 0 4 = 0x0#4 ∧
    (0x8121#16).extractLsb' 0 4 = 0x1#4 ∧ (0x8122#16).extractLsb' 0 4 = 0x2#4 ∧
    (0x8123#16).extractLsb' 0 4 = 0x3#4 := by decide

/-- x at both ends beside VF, x = VF under each `VF_ALIAS`, another register. -/
theorem witness_AddRegistersWritesCarry :
    (0x8F14#16).extractLsb' 12 4 = 0x8#4 ∧ (0x8F14#16).extractLsb' 0 4 = 0x4#4 ∧
    (0 : Index16) ≠ VF ∧ (14 : Index16) ≠ VF ∧ State.reset.params.vfAlias = .flagWins ∧
    (under resultWins).params.vfAlias = .resultWins ∧ (1 : Index16) ≠ 0 := by decide

theorem witness_SubtractWritesStrictComparison :
    (0x8F15#16).extractLsb' 12 4 = 0x8#4 ∧ (0x8F15#16).extractLsb' 0 4 = 0x5#4 ∧
    (0 : Index16) ≠ VF ∧ (14 : Index16) ≠ VF ∧ State.reset.params.vfAlias = .flagWins ∧
    (under resultWins).params.vfAlias = .resultWins ∧ (1 : Index16) ≠ 0 := by decide

theorem witness_ShiftRightShiftsVy :
    (0x8F06#16).extractLsb' 12 4 = 0x8#4 ∧ (0x8F06#16).extractLsb' 0 4 = 0x6#4 ∧
    (0 : Index16) ≠ VF ∧ (14 : Index16) ≠ VF ∧ State.reset.params.vfAlias = .flagWins ∧
    (under resultWins).params.vfAlias = .resultWins ∧ (1 : Index16) ≠ 0 := by decide

theorem witness_ReversedSubtractWritesStrictComparison :
    (0x8F17#16).extractLsb' 12 4 = 0x8#4 ∧ (0x8F17#16).extractLsb' 0 4 = 0x7#4 ∧
    (0 : Index16) ≠ VF ∧ (14 : Index16) ≠ VF ∧ State.reset.params.vfAlias = .flagWins ∧
    (under resultWins).params.vfAlias = .resultWins ∧ (1 : Index16) ≠ 0 := by decide

theorem witness_ShiftLeftShiftsVy :
    (0x8F1E#16).extractLsb' 12 4 = 0x8#4 ∧ (0x8F1E#16).extractLsb' 0 4 = 0xE#4 ∧
    (0 : Index16) ≠ VF ∧ (14 : Index16) ≠ VF ∧ State.reset.params.vfAlias = .flagWins ∧
    (under resultWins).params.vfAlias = .resultWins ∧ (1 : Index16) ≠ 0 := by decide

/-- With a byte lined up and with none. -/
theorem witness_RandomAndMasksFreeByte :
    (0xC30F#16).extractLsb' 12 4 = 0xC#4 ∧ (State.reset.offerRandom 0xAB).rnd = 0xAB#8 :: [] ∧
    State.reset.rnd = [] := by decide

/-! ## Witnesses: index register and memory instructions -/

theorem witness_IndexSetAndAdd :
    (0xA2F0#16).extractLsb' 12 4 = 0xA#4 ∧ (0xF11E#16).extractLsb' 12 4 = 0xF#4 ∧
    (0xF11E#16).extractLsb' 0 8 = 0x1E#8 := by decide

theorem witness_FontAddressPointsToGlyph :
    (0xF029#16).extractLsb' 12 4 = 0xF#4 ∧ (0xF029#16).extractLsb' 0 8 = 0x29#8 := by decide

/-- Up to the last cell of memory, and past it under `wrap12`. -/
theorem witness_BcdStoresDecimalDigits :
    (0xF033#16).extractLsb' 12 4 = 0xF#4 ∧ (0xF033#16).extractLsb' 0 8 = 0x33#8 ∧
    State.reset.mem.wf = true ∧
    State.Accessible { State.reset with I := 0xFFD#16 } 0xFFD 3 ∧
    State.Accessible { under wrapMem with I := 0xFFE#16 } 0xFFE 3 ∧
    memCell wrapMem.memOob 0xFFE = some 0xFFE ∧ memCell wrapMem.memOob 0xFFF = some 0xFFF ∧
    memCell wrapMem.memOob 0x1000 = some 0 ∧
    ¬ State.Reaches { State.reset with I := 0xFFD#16 } 0xFFD 3 0xFFC := by
  refine ⟨by decide, by decide, rfl, by unfold State.Accessible; decide,
    by unfold State.Accessible; decide, by decide, by decide, by decide, ?_⟩
  rintro ⟨k, hk, h⟩
  interval_cases k <;> exact absurd h (by decide)

/-- One register at the last cell, and sixteen up to it. -/
theorem witness_DumpStoresRegisters :
    (0xFF55#16).extractLsb' 12 4 = 0xF#4 ∧ (0xFF55#16).extractLsb' 0 8 = 0x55#8 ∧
    State.reset.mem.wf = true ∧
    State.Accessible { State.reset with I := 0xFFF#16 } 0xFFF (0 + 1) ∧
    State.Accessible { State.reset with I := 0xFF0#16 } 0xFF0 (15 + 1) ∧
    (15 : Index16) ≤ 15 ∧ memCell .undefined (0xFF0 + 15) = some 0xFFF ∧
    ¬ State.Reaches { State.reset with I := 0xFFF#16 } 0xFFF (0 + 1) 0xFFE := by
  refine ⟨by decide, by decide, rfl, by unfold State.Accessible; decide,
    by unfold State.Accessible; decide, by decide, by decide, ?_⟩
  rintro ⟨k, hk, h⟩
  interval_cases k
  exact absurd h (by decide)

theorem witness_LoadReadsRegisters :
    (0xF265#16).extractLsb' 12 4 = 0xF#4 ∧ (0xF265#16).extractLsb' 0 8 = 0x65#8 ∧
    State.Accessible { State.reset with I := 0xFFF#16 } 0xFFF (0 + 1) ∧
    State.Accessible { State.reset with I := 0xFF0#16 } 0xFF0 (15 + 1) ∧
    (15 : Index16) ≤ 15 ∧ memCell .undefined (0xFF0 + 15) = some 0xFFF ∧ (0 : Index16) < 1 := by
  refine ⟨by decide, by decide, by unfold State.Accessible; decide,
    by unfold State.Accessible; decide, by decide, by decide, by decide⟩

/-- The first I at which each of the three stops. -/
theorem witness_MemoryInstructionsStopOutsideMemory :
    ¬ State.Accessible { State.reset with I := 0xFFE#16 } 0xFFE 3 ∧
    ¬ State.Accessible { State.reset with I := 0x1000#16 } 0x1000 (0 + 1) ∧
    ¬ State.Accessible { State.reset with I := 0xFF1#16 } 0xFF1 (15 + 1) := by
  unfold State.Accessible
  decide

theorem witness_DumpThenLoadRestoresRegisters :
    ∃ t, exec (.dump 3) (regs [(0, 0x11), (3, 0x44)] { State.reset with I := 0xFFC#16 }) = .next t ∧
      ({ t with V := State.reset.V } : State).I = t.I ∧
      ({ t with V := State.reset.V } : State).params = t.params ∧
      ({ t with V := State.reset.V } : State).mem = t.mem :=
  ⟨_, rfl, rfl, rfl, rfl⟩

theorem witness_DumpedBytesAreFetched :
    ∃ t, exec (.dump 1) (regs [(0, 0x12), (1, 0x34)] { State.reset with I := 0xFFE#16 }) = .next t ∧
      (0 : Index16) < 1 ∧ ({ t with pc := 0xFFE#16 } : State).pc.toNat = 0xFFE + (0 : Index16).val ∧
      fetch { t with pc := 0xFFE#16 } = .ok 0x1234#16 :=
  ⟨_, rfl, by decide, rfl, by decide⟩

/-! ## Witnesses: keypad and timers -/

/-- Vx at 15 and 16 under both values of `KEY_OOB`. -/
theorem witness_KeySkipsTestOneKey :
    (0xE50E#16).extractLsb' 12 4 = 0xE#4 ∧ (0xE50E#16).extractLsb' 0 4 = 0xE#4 ∧
    (0xE5F1#16).extractLsb' 0 4 = 0x1#4 ∧
    ((regs [(5, 15)] State.reset).getV 5).toNat < 16 ∧
    (16 ≤ ((regs [(5, 16)] (under lowKey)).getV 5).toNat ∧
      (regs [(5, 16)] (under lowKey)).params.keyOob = .lowNibble ∧
      (0 : Index16).val = ((regs [(5, 16)] (under lowKey)).getV 5).toNat % 16) ∧
    16 ≤ ((regs [(5, 16)] State.reset).getV 5).toNat ∧
    (regs [(5, 16)] State.reset).params.keyOob = .undefined := by decide

/-- Only the last key pressed; no key pressed. -/
theorem witness_WaitForKeyTakesLowestKey :
    (0xF20A#16).extractLsb' 12 4 = 0xF#4 ∧ (0xF20A#16).extractLsb' 0 8 = 0x0A#8 ∧
    (pressing [15] State.reset).key[15] = true ∧
    (∀ j : Index16, j < 15 → (pressing [15] State.reset).key[j.val] = false) ∧
    ∀ k : Index16, State.reset.key[k.val] = false := by decide

theorem witness_TimerTransfersBeforeDecay :
    (0xF107#16).extractLsb' 12 4 = 0xF#4 ∧ (0xF107#16).extractLsb' 0 8 = 0x07#8 ∧
    (0xF015#16).extractLsb' 0 8 = 0x15#8 ∧ (0xF018#16).extractLsb' 0 8 = 0x18#8 := by decide

/-- A timer at 0 and at 255. -/
theorem witness_TimersDecayOncePerCycle :
    fetch (placed 0x0123 State.reset) = .ok 0x0123#16 ∧
    look (fun t => (t.DT, t.ST)) (cyc 0x0123 { State.reset with DT := 255#8 })
      = some (254#8, 0#8) ∧
    (∀ x, decode 0x0123#16 ≠ .ldDtVx x) ∧ ∀ x, decode 0x0123#16 ≠ .ldStVx x :=
  ⟨by decide, by decide, fun _ h => Instr.noConfusion h, fun _ h => Instr.noConfusion h⟩

/-- L2 "across cycles": `F015` with V0 = 5, then two cycles of CLS. -/
theorem witness_TimerCountsDownAcrossCycles :
    ∃ t u, fetch (placed 0xF015 (regs [(0, 5)] State.reset)) = .ok 0xF015#16 ∧
      cyc 0xF015 (regs [(0, 5)] State.reset) = .next t ∧ decode 0xF015#16 = .ldDtVx 0 ∧
      Cycles (fun i => ∀ y, i ≠ .ldDtVx y) 2 t u ∧ u.DT = 2#8 :=
  ⟨_, _, by decide, rfl, by decide,
    ⟨0x0000#16, _, by decide, fun _ h => Instr.noConfusion h, rfl,
      0x0000#16, _, by decide, fun _ h => Instr.noConfusion h, rfl, rfl⟩, by decide⟩

/-- The same for `F018`. -/
theorem witness_TimerCountsDownAcrossCycles_sound :
    ∃ t u, cyc 0xF018 (regs [(0, 5)] State.reset) = .next t ∧ decode 0xF018#16 = .ldStVx 0 ∧
      Cycles (fun i => ∀ y, i ≠ .ldStVx y) 1 t u ∧ u.ST = 3#8 :=
  ⟨_, _, rfl, by decide, ⟨0x0000#16, _, by decide, fun _ h => Instr.noConfusion h, rfl, rfl⟩,
    by decide⟩

theorem witness_JumpToSelfOnlyDecaysTimers :
    State.reset.undef = none ∧ State.reset.pc = (0x200#12 : Addr12).setWidth 16 ∧
    fetch (placed 0x1200 State.reset) = .ok (0x1#4 ++ (0x200#12 : Addr12)) := by decide

/-! ## Witnesses: what only some instructions change -/

/-- A call (the slot beside the pushed one), a return, and an instruction that is neither. -/
theorem witness_StackChangesOnlyByCallAndReturn :
    (∃ t, exec (.call 0x300#12) State.reset = .next t) ∧
    (1 : Fin 16).val ≠ State.reset.SP.toNat ∧
    (∃ t, exec .ret { State.reset with SP := 1#8 } = .next t) ∧ ∃ t, exec .cls State.reset = .next t :=
  ⟨⟨_, rfl⟩, by decide, ⟨_, rfl⟩, _, rfl⟩

theorem witness_FramebufferChangesOnlyByClearAndDraw :
    (∃ t, exec (.ldI 0x300#12) State.reset = .next t) ∧ Instr.ldI 0x300#12 ≠ .cls ∧
    ∀ x y n, Instr.ldI 0x300#12 ≠ .drw x y n :=
  ⟨⟨_, rfl⟩, by decide, fun _ _ _ h => Instr.noConfusion h⟩

/-- Neither; BCD and dump up to the last cell, with a cell below the stored ones. -/
theorem witness_MemoryChangesOnlyByStores :
    (∃ t, fetch (placed 0x0000 State.reset) = .ok 0x0000#16 ∧
      step (placed 0x0000 State.reset) = .next t) ∧
    (∃ t, fetch (placed 0xF033 { State.reset with I := 0xFFD#16 }) = .ok 0xF033#16 ∧
      step (placed 0xF033 { State.reset with I := 0xFFD#16 }) = .next t) ∧
    (∃ t, fetch (placed 0xF055 { State.reset with I := 0xFFF#16 }) = .ok 0xF055#16 ∧
      step (placed 0xF055 { State.reset with I := 0xFFF#16 }) = .next t) ∧
    (placed 0xF055 { State.reset with I := 0xFFF#16 }).mem.wf = true ∧
    ¬ State.Reaches { State.reset with I := 0xFFF#16 } 0xFFF (0 + 1) 0xFFE := by
  refine ⟨⟨_, by decide, rfl⟩, ⟨_, by decide, rfl⟩, ⟨_, by decide, rfl⟩, by decide, ?_⟩
  rintro ⟨k, hk, h⟩
  interval_cases k
  exact absurd h (by decide)

theorem witness_IndexChangesOnlyByThreeInstructions :
    (∃ t, exec (.dump 2) State.reset = .next t) ∧ (∀ nnn, Instr.dump 2 ≠ .ldI nnn) ∧
    (∀ x, Instr.dump 2 ≠ .addI x) ∧ ∀ x, Instr.dump 2 ≠ .ldF x :=
  ⟨⟨_, rfl⟩, fun _ h => Instr.noConfusion h, fun _ h => Instr.noConfusion h,
    fun _ h => Instr.noConfusion h⟩

/-- VF under an OR; the register above the last one a load writes. -/
theorem witness_RegistersChangeOnlyAsTabled :
    (∃ t, exec (.orReg 1 2) State.reset = .next t) ∧ ¬ (Instr.orReg 1 2).mayWrite VF ∧
    (∃ t, exec (.load 2) State.reset = .next t) ∧ ¬ (Instr.load 2).mayWrite 3 :=
  ⟨⟨_, rfl⟩, by unfold Instr.mayWrite; decide, ⟨_, rfl⟩, by unfold Instr.mayWrite; decide⟩

theorem witness_ProgramCounterOtherwiseAdvances :
    ∃ t, fetch (placed 0x6A05 State.reset) = .ok 0x6A05#16 ∧
      step (placed 0x6A05 State.reset) = .next t ∧ (decode 0x6A05#16).writesPc = false :=
  ⟨_, by decide, rfl, by decide⟩

theorem witness_CycleLeavesHostStateAlone :
    ∃ t, fetch (placed 0x6A05 (State.reset.offerRandom 7)) = .ok 0x6A05#16 ∧
      step (placed 0x6A05 (State.reset.offerRandom 7)) = .next t ∧
      ∀ x kk, decode 0x6A05#16 ≠ .rnd x kk :=
  ⟨_, by decide, rfl, fun _ _ h => Instr.noConfusion h⟩

/-! ## Witnesses: when a cycle completes -/

/-- Each instruction that can stop, at the last defined and the first undefined value. -/
theorem witness_InstructionCompletesExactlyWhenDefined :
    State.Defined { State.reset with SP := 16#8 } .ret ∧
    ¬ State.Defined { State.reset with SP := 17#8 } .ret ∧ ¬ State.Defined State.reset .ret ∧
    State.Defined { State.reset with SP := 15#8 } (.call 0x300#12) ∧
    ¬ State.Defined { State.reset with SP := 16#8 } (.call 0x300#12) ∧
    State.Defined (regs [(5, 15)] State.reset) (.skp 5) ∧
    ¬ State.Defined (regs [(5, 16)] State.reset) (.sknp 5) ∧
    State.Defined { State.reset with I := 0xFFD#16 } (.ldB 0) ∧
    ¬ State.Defined { State.reset with I := 0xFFE#16 } (.ldB 0) ∧
    State.Defined { State.reset with I := 0xFF0#16 } (.dump 15) ∧
    ¬ State.Defined { State.reset with I := 0xFF1#16 } (.load 15) := by
  simp only [State.Defined, State.KeyDefined, State.Accessible]
  decide

/-- A stop in each listed case: the fetch, the four instructions that reach memory, and the other
four reasons. -/
theorem witness_CycleStopsOnlyForListedReasons :
    State.reset.undef = none ∧ State.reset.SP.toNat ≤ 16 ∧
    step { State.reset with pc := 0xFFF#16 } = .fault (.undefined .memOob) ∧
    cyc 0xD003 { State.reset with I := 0xFFE#16 } = .fault (.undefined .memOob) ∧
    cyc 0xF033 { State.reset with I := 0xFFE#16 } = .fault (.undefined .memOob) ∧
    cyc 0xF155 { State.reset with I := 0xFFF#16 } = .fault (.undefined .memOob) ∧
    cyc 0xF165 { State.reset with I := 0xFFF#16 } = .fault (.undefined .memOob) ∧
    cyc 0x2300 { State.reset with SP := 16#8 } = .fault (.undefined .stackOverflow) ∧
    cyc 0x00EE State.reset = .fault (.undefined .stackUnderflow) ∧
    cyc 0xE59E (regs [(5, 0x10)] State.reset) = .fault (.undefined .keyOob) ∧
    cyc 0xE5A1 (regs [(5, 0x10)] State.reset) = .fault (.undefined .keyOob) ∧
    cyc 0xD011 (regs [(0, 0x3E)] { under strictDraw with I := 0x050#16 }) =
      .fault (.undefined .drawOffscreen) :=
  ⟨rfl, by decide, rfl, rfl, rfl, rfl, rfl, rfl, rfl, rfl, rfl, rfl⟩

theorem witness_UndefinedMarkIsSticky :
    step { State.reset with pc := 0xFFF#16 } = .fault (.undefined .memOob) ∧
    ({ State.reset with undef := some .keyOob } : State).undef = some .keyOob :=
  ⟨rfl, rfl⟩

/-! ## Witnesses: the host's side -/

/-- Images of 0, 1, 3584 and 3585 bytes. -/
theorem witness_RomLoadCopiesImage :
    State.reset.mem.wf = true ∧ ([] : List Byte).length ≤ 3584 ∧
    look (fun t => t.mem.read 0x200) (State.reset.loadRom (some [7#8])) = some 7#8 ∧
    (List.replicate 3584 0x07#8).length ≤ 3584 ∧ 3584 < (List.replicate 3585 0x07#8).length :=
  ⟨rfl, by decide, by decide, by rw [List.length_replicate], by rw [List.length_replicate]; decide⟩

theorem witness_LaunchBuildsInitialState :
    ([] : List Byte).length ≤ 3584 ∧ (List.replicate 3584 0x07#8).length ≤ 3584 :=
  ⟨by decide, by rw [List.length_replicate]⟩

/-- The first and the last cell; ST at 0 and at 1. -/
theorem witness_VideoAndSoundPortsShowState :
    (0 : Fin 2048).val = (0 : Fin 32).val * 64 + (0 : Fin 64).val ∧
    (2047 : Fin 2048).val = (31 : Fin 32).val * 64 + (63 : Fin 64).val ∧
    State.reset.sound = false ∧ State.sound { State.reset with ST := 1#8 } = true := by decide

end Sys2Proof.Tests
end

section
/-!
The statements of 10_state.md: which parts of the state a completed instruction may change, the
invariant that every cycle keeps, and the ports. `Frame` says once, for each instruction, which
fields its meaning may write; every statement about an untouched field is a reading of
`exec_frame`.
-/

namespace Sys2Proof.Machine

/-! ## Small updates -/

theorem State.skipIf_eq (s : State) (c : Bool) :
    s.skipIf c = { s with pc := (s.skipIf c).pc } := by
  cases c <;> rfl

theorem State.getV_setV_of_ne {x r : Index16} (h : r ≠ x) (s : State) (b : Byte) :
    (s.setV x b).getV r = s.getV r := by
  rw [State.getV_setV, if_neg h]

theorem State.getV_writeResultAndFlag_of_ne {x r : Index16} (hx : r ≠ x) (hf : r ≠ VF)
    (s : State) (v : Flagged) : (s.writeResultAndFlag x v).getV r = s.getV r := by
  rcases s.writeResultAndFlag_cases x v with ⟨_, h⟩ | ⟨_, _, h⟩ | ⟨_, _, h⟩
  · rw [h, State.getV_setV_of_ne hf, State.getV_setV_of_ne hx]
  · rw [h, State.getV_setV_of_ne hf]
  · rw [h, State.getV_setV_of_ne hf]

theorem execLdVxK_cases {x : Index16} {s t : State} (h : execLdVxK x s = .next t) :
    (∃ b, t = s.setV x b) ∨ t = s.rewind := by
  unfold execLdVxK at h
  split at h
  · exact .inl ⟨_, (Host.Outcome.next.inj h).symm⟩
  · exact .inr (Host.Outcome.next.inj h).symm

/-- A list written to the first registers leaves the registers above it. -/
theorem getElem_setRegisters_above {V : Vector Byte 16} {bs : List Byte} {r : Nat} (hr : r < 16)
    (h : bs.length ≤ r) : (setRegisters V 0 bs)[r] = V[r] := by
  rw [getElem_setRegisters r hr (by omega), dif_neg (by omega)]

/-! ## The frame of each instruction -/

/-- `t` is `s` but for the fields that the meaning of `i` may write (10_state.md R22 to R30). -/
def Frame (i : Instr) (s t : State) : Prop :=
  match i with
  | .nop0 _ | .nop8 _ | .nopE _ | .nopF _ => t = s
  | .jp _ | .jpReg _ _ | .seByte _ _ | .sneByte _ _ | .seReg _ _ | .sneReg _ _ | .skp _ | .sknp _ =>
    t = { s with pc := t.pc }
  | .ret => t = { s with pc := t.pc, SP := t.SP }
  | .call _ => t = { s with pc := t.pc, SP := t.SP, stack := t.stack }
  | .ldByte _ _ | .addByte _ _ | .ldReg _ _ | .orReg _ _ | .andReg _ _ | .xorReg _ _ | .addReg _ _
  | .subReg _ _ | .shr _ _ | .subn _ _ | .shl _ _ | .ldVxDt _ | .load _ => t = { s with V := t.V }
  | .rnd _ _ => t = { s with V := t.V, rnd := t.rnd, rndCount := t.rndCount }
  | .ldVxK _ => t = { s with V := t.V, pc := t.pc }
  | .ldI _ | .addI _ | .ldF _ => t = { s with I := t.I }
  | .ldDtVx _ => t = { s with DT := t.DT }
  | .ldStVx _ => t = { s with ST := t.ST }
  | .cls => t = { s with fb := t.fb }
  | .drw _ _ _ => t = { s with V := t.V, fb := t.fb }
  | .ldB _ | .dump _ => t = { s with mem := t.mem }

/-- A completed instruction changes only the fields that `Frame` lists for it. -/
theorem exec_frame {i : Instr} {s t : State} (h : exec i s = .next t) : Frame i s t := by
  cases i with
  | seByte _ _ | sneByte _ _ | seReg _ _ | sneReg _ _ =>
    obtain rfl := Host.Outcome.next.inj h
    exact s.skipIf_eq _
  | skp x =>
    obtain ⟨p, _, rfl⟩ := execSkp_eq_next.1 h
    exact s.skipIf_eq p
  | sknp x =>
    obtain ⟨p, _, rfl⟩ := execSknp_eq_next.1 h
    exact s.skipIf_eq !p
  | ret =>
    obtain ⟨w, u, hpop, rfl⟩ := execRet_eq_next.1 h
    obtain ⟨_, _, _, rfl⟩ := State.pop_eq_ok.1 hpop
    rfl
  | call nnn =>
    obtain ⟨u, hpush, rfl⟩ := execCall_eq_next.1 h
    obtain ⟨_, rfl⟩ := State.push_eq_ok.1 hpush
    rfl
  | addReg x _ | subReg x _ | shr x _ | subn x _ | shl x _ =>
    obtain rfl := Host.Outcome.next.inj h
    exact s.writeResultAndFlag_eq x _
  | rnd x kk =>
    obtain rfl := Host.Outcome.next.inj h
    rw [rand8_eq s]
    rfl
  | ldVxK x => rcases execLdVxK_cases h with ⟨b, rfl⟩ | rfl <;> rfl
  | load x =>
    obtain ⟨bs, _, rfl⟩ := execLoad_eq_next.1 h
    rfl
  | drw x y n =>
    obtain ⟨c, _, rfl⟩ := execDrw_eq_next.1 h
    rfl
  | ldB x | dump x => exact storeBytes_eq (conclude_eq_next.1 h)
  | _ =>
    obtain rfl := Host.Outcome.next.inj h
    rfl

/-! ## What an instruction leaves, field by field -/

section
variable {i : Instr} {s t : State}

theorem exec_stack (h : exec i s = .next t) (hcall : ∀ nnn, i ≠ .call nnn) :
    t.stack = s.stack := by
  have hf := exec_frame h
  cases i with
  | call nnn => exact absurd rfl (hcall nnn)
  | _ => exact (congrArg State.stack hf :)

theorem exec_SP (h : exec i s = .next t) (hcall : ∀ nnn, i ≠ .call nnn) (hret : i ≠ .ret) :
    t.SP = s.SP := by
  have hf := exec_frame h
  cases i with
  | call nnn => exact absurd rfl (hcall nnn)
  | ret => exact absurd rfl hret
  | _ => exact (congrArg State.SP hf :)

theorem exec_fb (h : exec i s = .next t) (hcls : i ≠ .cls) (hdrw : ∀ x y n, i ≠ .drw x y n) :
    t.fb = s.fb := by
  have hf := exec_frame h
  cases i with
  | cls => exact absurd rfl hcls
  | drw x y n => exact absurd rfl (hdrw x y n)
  | _ => exact (congrArg State.fb hf :)

theorem exec_I (h : exec i s = .next t) (hldI : ∀ nnn, i ≠ .ldI nnn) (haddI : ∀ x, i ≠ .addI x)
    (hldF : ∀ x, i ≠ .ldF x) : t.I = s.I := by
  have hf := exec_frame h
  cases i with
  | ldI nnn => exact absurd rfl (hldI nnn)
  | addI x => exact absurd rfl (haddI x)
  | ldF x => exact absurd rfl (hldF x)
  | _ => exact (congrArg State.I hf :)

theorem exec_mem (h : exec i s = .next t) (hldB : ∀ x, i ≠ .ldB x) (hdump : ∀ x, i ≠ .dump x) :
    t.mem = s.mem := by
  have hf := exec_frame h
  cases i with
  | ldB x => exact absurd rfl (hldB x)
  | dump x => exact absurd rfl (hdump x)
  | _ => exact (congrArg State.mem hf :)

theorem exec_DT (h : exec i s = .next t) (hset : ∀ x, i ≠ .ldDtVx x) : t.DT = s.DT := by
  have hf := exec_frame h
  cases i with
  | ldDtVx x => exact absurd rfl (hset x)
  | _ => exact (congrArg State.DT hf :)

theorem exec_ST (h : exec i s = .next t) (hset : ∀ x, i ≠ .ldStVx x) : t.ST = s.ST := by
  have hf := exec_frame h
  cases i with
  | ldStVx x => exact absurd rfl (hset x)
  | _ => exact (congrArg State.ST hf :)

theorem exec_pc (h : exec i s = .next t) (hpc : i.writesPc = false) : t.pc = s.pc := by
  have hf := exec_frame h
  cases i with
  | ret | jp _ | call _ | jpReg _ _ | seByte _ _ | sneByte _ _ | seReg _ _ | sneReg _ _ | skp _
  | sknp _ | ldVxK _ => exact Bool.noConfusion hpc
  | _ => exact (congrArg State.pc hf :)

theorem exec_random (h : exec i s = .next t) (hrnd : ∀ x kk, i ≠ .rnd x kk) :
    t.rnd = s.rnd ∧ t.rndCount = s.rndCount := by
  have hf := exec_frame h
  cases i with
  | rnd x kk => exact absurd rfl (hrnd x kk)
  | _ => exact ⟨(congrArg State.rnd hf :), (congrArg State.rndCount hf :)⟩

/-- No instruction writes the keypad, the parameters or the mark. -/
theorem exec_host (h : exec i s = .next t) :
    t.key = s.key ∧ t.params = s.params ∧ t.undef = s.undef := by
  have hf := exec_frame h
  cases i <;>
    exact ⟨(congrArg State.key hf :), (congrArg State.params hf :), (congrArg State.undef hf :)⟩

/-- A register outside the table of 10_state.md R22 keeps its value. -/
theorem exec_getV {r : Index16} (h : exec i s = .next t) (hr : ¬ i.mayWrite r) :
    t.getV r = s.getV r := by
  have hf := exec_frame h
  cases i with
  | ldByte x _ | addByte x _ | ldReg x _ | orReg x _ | andReg x _ | xorReg x _ | ldVxDt x =>
    obtain rfl := Host.Outcome.next.inj h
    exact State.getV_setV_of_ne hr s _
  | rnd x kk =>
    obtain rfl := Host.Outcome.next.inj h
    exact (State.getV_setV_of_ne hr _ _).trans (congrArg (State.getV · r) (rand8_eq s) :)
  | ldVxK x =>
    rcases execLdVxK_cases h with ⟨b, rfl⟩ | rfl
    · exact State.getV_setV_of_ne hr s b
    · rfl
  | addReg x _ | subReg x _ | shr x _ | subn x _ | shl x _ =>
    obtain ⟨hx, hvf⟩ := not_or.1 hr
    obtain rfl := Host.Outcome.next.inj h
    exact State.getV_writeResultAndFlag_of_ne hx hvf s _
  | drw x y n =>
    obtain ⟨c, _, rfl⟩ := execDrw_eq_next.1 h
    exact State.getV_setV_of_ne hr _ _
  | load x =>
    obtain ⟨bs, hbs, rfl⟩ := execLoad_eq_next.1 h
    have hlen := (loadBytes_eq_ok hbs).1
    have hxr : x.val < r.val := not_le.1 hr
    exact getElem_setRegisters_above r.isLt (by omega)
  | _ => exact (congrArg (State.getV · r) hf :)

/-! ## The invariant -/

theorem exec_keeps_mem_wf (hm : s.mem.wf = true) (h : exec i s = .next t) : t.mem.wf = true := by
  cases i with
  | ldB x | dump x => exact (storeBytes_frame hm (conclude_eq_next.1 h)).1
  | _ => rwa [exec_mem h (by simp) (by simp)]

/-- A call needs a free slot and a return an occupied one, so SP stays in 0 to 16. -/
theorem exec_keeps_SP_legal (hs : s.SP.toNat ≤ 16) (h : exec i s = .next t) :
    t.SP.toNat ≤ 16 := by
  cases i with
  | call nnn =>
    obtain ⟨u, hpush, rfl⟩ := execCall_eq_next.1 h
    obtain ⟨hlt, rfl⟩ := State.push_eq_ok.1 hpush
    simp only [State.jumpTo_SP]
    bv_omega
  | ret =>
    obtain ⟨w, u, hpop, rfl⟩ := execRet_eq_next.1 h
    obtain ⟨hne, _, _, rfl⟩ := State.pop_eq_ok.1 hpop
    simp only [State.jumpTo_SP]
    bv_omega
  | _ => rwa [exec_SP h (by simp) (by simp)]

theorem exec_keeps_inv (hs : s.Inv) (h : exec i s = .next t) : t.Inv :=
  ⟨exec_keeps_mem_wf hs.1 h, exec_keeps_SP_legal hs.2 h⟩

/-- A call changes no slot but the one at SP. -/
theorem execCall_stack_of_ne {nnn : Addr12} {k : Fin 16} (h : execCall nnn s = .next t)
    (hk : k.val ≠ s.SP.toNat) : t.stack[k.val] = s.stack[k.val] := by
  obtain ⟨u, hpush, rfl⟩ := execCall_eq_next.1 h
  obtain ⟨hlt, rfl⟩ := State.push_eq_ok.1 hpush
  exact Vector.getElem_set_ne hlt k.isLt hk.symm

/-- The execute phase of a completed cycle whose fetch is known (40_cycle.md R111). -/
theorem exec_of_step {op : Word} (hop : fetch s = .ok op) (h : step s = .next t) :
    s.undef = none ∧ ∃ u, exec (decode op) s.advance = .next u ∧ t = u.decay := by
  obtain ⟨hu, op', u, hop', hexec, ht⟩ := step_eq_next.1 h
  obtain rfl : op = op' := Except.ok.inj (hop.symm.trans hop')
  exact ⟨hu, u, hexec, ht⟩

end

/-! ## Canonical memory -/

/-- An address that one memory lists is not below all those that another one lists, where both read
alike there. -/
theorem Memory.le_of_read_eq {lo lo' k : Nat} {b : Byte} {m m' : Memory}
    (h : Memory.wfFrom lo ((k, b) :: m) = true) (h' : Memory.wfFrom lo' m' = true)
    (heq : Memory.read ((k, b) :: m) k = m'.read k) : lo' ≤ k := by
  by_contra hlt
  rw [Memory.read_cons, if_pos rfl, Memory.read_below h' (not_le.1 hlt)] at heq
  exact (Memory.wfFrom_cons.1 h).2.2.1 heq

theorem Memory.ext_read {lo : Nat} {m₁ m₂ : Memory} (h₁ : Memory.wfFrom lo m₁ = true)
    (h₂ : Memory.wfFrom lo m₂ = true)
    (heq : ∀ a, a < Config.memSize → m₁.read a = m₂.read a) : m₁ = m₂ := by
  induction m₁ generalizing lo m₂ with
  | nil =>
    cases m₂ with
    | nil => rfl
    | cons p m₂ =>
      obtain ⟨k, b⟩ := p
      have hk := (Memory.wfFrom_cons.1 h₂).2.1
      have := Memory.le_of_read_eq (lo' := k + 1) (m' := []) h₂ rfl (heq k hk).symm
      omega
  | cons p m₁ ih =>
    obtain ⟨k₁, b₁⟩ := p
    obtain ⟨_, hk₁, hb₁, ht₁⟩ := Memory.wfFrom_cons.1 h₁
    cases m₂ with
    | nil =>
      have := Memory.le_of_read_eq (lo' := k₁ + 1) (m' := []) h₁ rfl (heq k₁ hk₁)
      omega
    | cons q m₂ =>
      obtain ⟨k₂, b₂⟩ := q
      obtain ⟨_, hk₂, hb₂, ht₂⟩ := Memory.wfFrom_cons.1 h₂
      have h₂₁ : k₂ ≤ k₁ := Memory.le_of_read_eq h₁
        (Memory.wfFrom_cons.2 ⟨le_refl k₂, hk₂, hb₂, ht₂⟩) (heq k₁ hk₁)
      have h₁₂ : k₁ ≤ k₂ := Memory.le_of_read_eq h₂
        (Memory.wfFrom_cons.2 ⟨le_refl k₁, hk₁, hb₁, ht₁⟩) (heq k₂ hk₂).symm
      obtain rfl : k₁ = k₂ := le_antisymm h₁₂ h₂₁
      obtain rfl : b₁ = b₂ := by simpa [Memory.read_cons] using heq k₁ hk₁
      have htail : m₁ = m₂ := ih ht₁ ht₂ fun a ha => by
        by_cases hak : k₁ = a
        · rw [Memory.read_below ht₁ (by omega), Memory.read_below ht₂ (by omega)]
        · simpa [Memory.read_cons, hak] using heq a ha
      rw [htail]

/-! ## The mark of an undefined outcome -/

theorem State.cycle_of_undefined {s : State} {r : Reason}
    (h : step s = .fault (.undefined r)) : s.cycle = { s with undef := some r } := by
  simp only [State.cycle, h]

theorem step_of_marked {s : State} {r : Reason} (h : s.undef = some r) :
    step s = .fault (.stuck r) := by
  simp only [step, h]

theorem State.cycle_of_marked {s : State} {r : Reason} (h : s.undef = some r) : s.cycle = s := by
  simp only [State.cycle, step_of_marked h]

theorem State.hostMove_keeps_mark {s : State} {r : Reason} (h : s.undef = some r)
    (m : HostMove) : (s.hostMove m).undef = some r := by
  cases m with
  | cycle => exact (congrArg State.undef (State.cycle_of_marked h)).trans h
  | keys key => exact h
  | random b => exact h

theorem State.runHost_keeps_mark {s : State} {r : Reason} (h : s.undef = some r)
    (moves : List HostMove) : (s.runHost moves).undef = some r := by
  induction moves generalizing s with
  | nil => exact h
  | cons m ms ih => exact ih (State.hostMove_keeps_mark h m)

/-! ## The ports -/

/-- The cell of a pixel is in row-major order (10_state.md R31). -/
theorem State.video_of_cell (s : State) {cell : Fin 2048} {col : Fin 64} {row : Fin 32}
    (h : cell.val = row.val * 64 + col.val) :
    s.video cell = if s.fb.pixel col row = true then 0xFFFFFFFF#32 else 0x00000000#32 := by
  have hcol : Fin.ofNat 64 cell.val = col := Fin.ext (by simp only [Fin.val_ofNat]; omega)
  have hrow : Fin.ofNat 32 (cell.val / 64) = row := Fin.ext (by simp only [Fin.val_ofNat]; omega)
  rw [State.video, hcol, hrow]

theorem State.sound_eq_true_iff (s : State) : s.sound = true ↔ s.ST.toNat ≠ 0 := by
  rw [State.sound, bne_iff_ne, ne_eq, ne_eq, BitVec.toNat_eq]
  rfl

/-! ## The obligations -/

/-- Settles O9: the execute phase keeps the invariant, and no other phase writes memory or SP. -/
theorem everyCycleKeepsInvariant : Obligations.EveryCycleKeepsInvariant := by
  intro s t hs h
  obtain ⟨_, op, u, _, hexec, rfl⟩ := step_eq_next.1 h
  have hu : u.Inv := exec_keeps_inv (s := s.advance) hs hexec
  exact hu

/-- Settles O15, by induction on both lists: each lists the least address where its contents differ
from those at construction. -/
theorem equalContentsMeanEqualMemory : Obligations.EqualContentsMeanEqualMemory :=
  fun _ _ h₁ h₂ heq => Memory.ext_read h₁ h₂ heq

/-- Settles O44: an instruction that does not set a timer leaves it to the decay phase. -/
theorem timersDecayOncePerCycle : Obligations.TimersDecayOncePerCycle := by
  intro s t op hop h
  obtain ⟨_, u, hexec, rfl⟩ := exec_of_step hop h
  refine ⟨fun hset => ?_, fun hset => ?_⟩
  · rw [State.decay_DT, toNat_decayTimer, exec_DT hexec hset, State.advance_DT]
  · rw [State.decay_ST, toNat_decayTimer, exec_ST hexec hset, State.advance_ST]

/-- Settles O47, from the frame of each instruction and the slot that a call writes. -/
theorem stackChangesOnlyByCallAndReturn : Obligations.StackChangesOnlyByCallAndReturn := by
  intro i s t h
  refine ⟨exec_stack h, exec_SP h, ?_⟩
  rintro nnn rfl k hk
  exact execCall_stack_of_ne h hk

/-- Settles O48, from the frame of each instruction. -/
theorem framebufferChangesOnlyByClearAndDraw :
    Obligations.FramebufferChangesOnlyByClearAndDraw :=
  fun _ _ _ h hcls hdrw => exec_fb h hcls hdrw

/-- Settles O50, from the frame of each instruction. -/
theorem indexChangesOnlyByThreeInstructions :
    Obligations.IndexChangesOnlyByThreeInstructions :=
  fun _ _ _ h hldI haddI hldF => exec_I h hldI haddI hldF

/-- Settles O51: the instructions that write registers, one by one, and the frame of the others. -/
theorem registersChangeOnlyAsTabled : Obligations.RegistersChangeOnlyAsTabled :=
  fun _ _ _ _ h hr => exec_getV h hr

/-- Settles O52: after the advance phase such an instruction leaves pc alone. -/
theorem programCounterOtherwiseAdvances : Obligations.ProgramCounterOtherwiseAdvances := by
  intro s t op hop h hpc
  obtain ⟨_, u, hexec, rfl⟩ := exec_of_step hop h
  rw [State.decay_pc, exec_pc hexec hpc, State.advance_pc]

/-- Settles O53: no phase writes these fields, and a cycle starts from an unmarked state. -/
theorem cycleLeavesHostStateAlone : Obligations.CycleLeavesHostStateAlone := by
  intro s t op hop h
  obtain ⟨hmark, u, hexec, rfl⟩ := exec_of_step hop h
  obtain ⟨hkey, hparams, hundef⟩ := exec_host hexec
  exact ⟨hkey, hparams, hundef.trans hmark, exec_random (s := s.advance) (t := u) hexec⟩

/-- Settles O56, by induction on the host's moves. -/
theorem undefinedMarkIsSticky : Obligations.UndefinedMarkIsSticky :=
  ⟨fun _ _ h => congrArg State.undef (State.cycle_of_undefined h),
    fun _ _ h => ⟨step_of_marked h, State.cycle_of_marked h⟩,
    fun _ _ moves h => State.runHost_keeps_mark h moves⟩

/-- Settles O59: a cell's quotient and remainder by 64 are the pixel's row and column. -/
theorem videoAndSoundPortsShowState : Obligations.VideoAndSoundPortsShowState :=
  fun s _ _ => ⟨fun _ h => s.video_of_cell h, s.sound_eq_true_iff⟩

end Sys2Proof.Machine
end

section
/-!
The statements of 20_memory.md: which cell an access reaches, what a register-dump leaves for a
later read, and which instructions change memory at all.
-/

namespace Sys2Proof.Machine

/-! ## The cell of an address -/

/-- The accesses that are defined, and their cells (20_memory.md R52). -/
theorem memCell_eq_some {mode : MemOob} {a c : Nat} :
    memCell mode a = some c ↔
      (a ≤ 0xFFF ∧ c = a) ∨ (0xFFF < a ∧ mode = .wrap12 ∧ c = a % 4096) := by
  by_cases ha : a < Config.memSize
  · have ha' : a ≤ 0xFFF := Nat.le_of_lt_succ ha
    rw [memCell_of_lt mode ha, Option.some.injEq]
    omega
  · have ha' : 0xFFF < a := not_le.1 fun h => ha (Nat.lt_succ_of_le h)
    unfold memCell
    rw [if_neg ha]
    cases mode <;> simp [ha', Config.memSize, eq_comm]

/-- The case of decision D4 in which an access reaches no cell. -/
theorem memCell_of_undefined {a : Nat} (ha : 0xFFF < a) : memCell .undefined a = none :=
  Option.eq_none_iff_forall_ne_some.2 fun c hc => by
    rcases memCell_eq_some.1 hc with ⟨hle, _⟩ | ⟨_, hmode, _⟩
    · omega
    · exact MemOob.noConfusion hmode

/-! ## One access -/

section
variable {s t u : State}

theorem memRead_of_memCell {a c : Nat} (hc : memCell s.params.memOob a = some c) :
    memRead s a = .ok (s.mem.read c) :=
  memRead_eq_ok.2 ⟨c, hc, rfl⟩

/-- A read depends on no field but memory and the parameters. -/
theorem memRead_congr (hmem : u.mem = t.mem) (hparams : u.params = t.params) (a : Nat) :
    memRead u a = memRead t a := by
  rw [memRead, memRead, hmem, hparams]

/-- A write that reaches a cell changes that cell only. -/
theorem memWrite_of_memCell {a c : Nat} (v : Byte) (hm : s.mem.wf = true)
    (hc : memCell s.params.memOob a = some c) :
    ∃ t, memWrite s a v = .ok t ∧ t = { s with mem := t.mem } ∧ t.mem.wf = true ∧
      ∀ b, t.mem.read b = if b = c then v else s.mem.read b :=
  ⟨_, memWrite_eq_ok.2 ⟨c, hc, rfl⟩, rfl, Memory.wf_write hm (memCell_lt hc) v,
    Memory.read_write hm c v⟩

/-! ## Stores -/

/-- Every byte of a completed store of at most 4096 bytes is what a read of its address finds. -/
theorem memRead_storeBytes {bs : List Byte} {a j : Nat} (hm : s.mem.wf = true)
    (hlen : bs.length ≤ Config.memSize) (h : storeBytes s a bs = .ok t) (hj : j < bs.length) :
    memRead t (a + j) = .ok bs[j] := by
  have hparams : t.params = s.params := (congrArg State.params (storeBytes_eq h) :)
  obtain ⟨c, hc⟩ := Option.ne_none_iff_exists'.1 (storeBytes_ok_iff.1 ⟨t, h⟩ j hj)
  exact memRead_eq_ok.2 ⟨c, hparams ▸ hc, (storeBytes_read hm hlen h j hj c hc).symm⟩

/-- After a register-dump, register r is what a read of I + r finds (44_index_memory.md R184). -/
theorem memRead_execDump {x r : Index16} (hm : s.mem.wf = true) (h : execDump x s = .next t)
    (hr : r ≤ x) : memRead t (s.I.toNat + r.val) = .ok (s.getV r) := by
  have hlen := length_firstRegisters s x
  have hsize : (s.firstRegisters x).length ≤ Config.memSize := by
    simp only [Config.memSize]
    omega
  have hj : r.val < (s.firstRegisters x).length := hlen ▸ Nat.lt_succ_of_le hr
  rw [memRead_storeBytes hm hsize (conclude_eq_next.1 h) hj, getElem_firstRegisters]
  rfl

/-- BCD-decompose changes no cell but those of I, I + 1 and I + 2. -/
theorem execLdB_mem_of_not_reaches {x : Index16} {a : Nat} (hm : s.mem.wf = true)
    (h : execLdB x s = .next t) (ha : ¬ s.Reaches s.I.toNat 3 a) :
    t.mem.read a = s.mem.read a :=
  (storeBytes_frame hm (conclude_eq_next.1 h)).2 a ha

/-- A register-dump changes no cell but those of I to I + x. -/
theorem execDump_mem_of_not_reaches {x : Index16} {a : Nat} (hm : s.mem.wf = true)
    (h : execDump x s = .next t) (ha : ¬ s.Reaches s.I.toNat (x.val + 1) a) :
    t.mem.read a = s.mem.read a :=
  (storeBytes_frame hm (conclude_eq_next.1 h)).2 a (by rwa [length_firstRegisters])

end

/-! ## Fetch -/

theorem fetch_of_memRead {s : State} {hi lo : Byte} (hhi : memRead s s.pc.toNat = .ok hi)
    (hlo : memRead s (s.pc.toNat + 1) = .ok lo) : fetch s = .ok (hi ++ lo) :=
  fetch_eq_ok.2 ⟨hi, lo, hhi, hlo, rfl⟩

/-! ## The obligations -/

/-- Settles O14, from the cell that each address reaches. -/
theorem memoryAccessByAddress : Obligations.MemoryAccessByAddress := by
  intro s a v hm
  refine ⟨fun c hc => ?_, fun ha hmode => ?_⟩
  · have hcell := memCell_eq_some.2 hc
    exact ⟨memRead_of_memCell hcell, memWrite_of_memCell v hm hcell⟩
  · have hcell : memCell s.params.memOob a = none := hmode ▸ memCell_of_undefined ha
    exact ⟨memRead_eq_error.2 ⟨hcell, rfl⟩, memWrite_eq_error.2 ⟨hcell, rfl⟩⟩

/-- Settles O40: the two bytes that the fetch reads are the dumped registers r and r + 1. -/
theorem dumpedBytesAreFetched : Obligations.DumpedBytesAreFetched := by
  intro x s t u r hm h hmem hparams hr hpc
  have hlt : r.val + 1 < 16 := Nat.lt_of_le_of_lt hr x.isLt
  have hread : ∀ j : Index16, j ≤ x → memRead u (s.I.toNat + j.val) = .ok (s.getV j) :=
    fun j hj => (memRead_congr hmem hparams _).trans (memRead_execDump hm h hj)
  have hhi : memRead u u.pc.toNat = .ok (s.getV r) := hpc ▸ hread r hr.le
  have hlo : memRead u (u.pc.toNat + 1) = .ok (s.getV ⟨r.val + 1, hlt⟩) :=
    hpc ▸ hread ⟨r.val + 1, hlt⟩ hr
  have hnext : s.V.getD (r.val + 1) 0#8 = s.getV ⟨r.val + 1, hlt⟩ := by
    simp [Vector.getD, hlt, State.getV]
  rw [hnext]
  exact fetch_of_memRead hhi hlo

/-- Settles O49: the execute phase is the only one that may write memory, and the advance phase
before it leaves I, the parameters and memory as they were. -/
theorem memoryChangesOnlyByStores : Obligations.MemoryChangesOnlyByStores := by
  intro s t op hm hop h
  obtain ⟨_, u, hexec, rfl⟩ := exec_of_step hop h
  refine ⟨fun hldB hdump a => ?_, fun x hx a ha => ?_, fun x hx a ha => ?_⟩
  · rw [State.decay_mem, exec_mem hexec hldB hdump, State.advance_mem]
  · rw [hx] at hexec
    exact execLdB_mem_of_not_reaches (s := s.advance) (t := u) hm hexec ha
  · rw [hx] at hexec
    exact execDump_mem_of_not_reaches (s := s.advance) (t := u) hm hexec ha

/-- Settles O12: the byte at pc is the high half of the fetched word. -/
theorem fetchIsBigEndian : Obligations.FetchIsBigEndian := by
  intro s hi lo hhi hlo
  exact ⟨hi ++ lo, fetch_of_memRead hhi hlo, BitVec.extractLsb'_append_eq_left,
    BitVec.extractLsb'_append_eq_right⟩

end Sys2Proof.Machine
end

section
/-!
The statements of 30_encoding.md. `Agrees` says once what decoding gives: a well-formed instruction
whose row the opcode selects, and which encodes to the opcode itself unless the operation has
ignored bits. It is shown for each family and then for the decoder; every statement about all
opcodes is a reading of `decode_agrees`.
-/

namespace Sys2Proof

/-! ## Fields within fields -/

theorem extractLsb'_extractLsb'_of_le {w i j m n : Nat} (h : j + n ≤ m) (b : BitVec w) :
    (b.extractLsb' i m).extractLsb' j n = b.extractLsb' (i + j) n := by
  ext k hk
  have : j + k < m := by omega
  simp [BitVec.getElem_extractLsb', this, Nat.add_assoc]

@[simp] theorem lowNibble_of_nnnField (op : Word) :
    (nnnField op).extractLsb' 0 4 = lowNibble op :=
  extractLsb'_extractLsb'_of_le (by decide) op

@[simp] theorem kkField_of_nnnField (op : Word) :
    (nnnField op).extractLsb' 0 8 = kkField op :=
  extractLsb'_extractLsb'_of_le (by decide) op

@[simp] theorem xField_of_nnnField (op : Word) :
    ((nnnField op).extractLsb' 8 4).toFin = xField op :=
  congrArg BitVec.toFin (extractLsb'_extractLsb'_of_le (by decide) op)

/-- The bits op[11:4] are x and y. -/
theorem fields_eq_of_middle {a b : Word} (h : a.extractLsb' 4 8 = b.extractLsb' 4 8) :
    xField a = xField b ∧ yField a = yField b := by
  have hsub : ∀ j, j + 4 ≤ 8 → a.extractLsb' (4 + j) 4 = b.extractLsb' (4 + j) 4 := fun j hj => by
    rw [← extractLsb'_extractLsb'_of_le hj a, h, extractLsb'_extractLsb'_of_le hj]
  exact ⟨congrArg BitVec.toFin (hsub 4 (by decide)), congrArg BitVec.toFin (hsub 0 (by decide))⟩

/-! ## An opcode from its fields -/

section
variable {op : Word} {top : BitVec 4}

theorem encodeA_fields (htop : topNibble op = top) : encodeA top (nnnField op) = op := by
  apply BitVec.eq_of_toNat_eq
  rw [← htop, toNat_encodeA, toNat_topNibble, toNat_nnnField]
  omega

theorem encodeXK_fields {kk : Byte} (htop : topNibble op = top) (hkk : kkField op = kk) :
    encodeXK top (xField op) kk = op := by
  apply BitVec.eq_of_toNat_eq
  rw [← htop, ← hkk, toNat_encodeXK, toNat_topNibble, val_xField, toNat_kkField]
  omega

theorem encodeXY_fields {low : BitVec 4} (htop : topNibble op = top) (hlow : lowNibble op = low) :
    encodeXY top (xField op) (yField op) low = op := by
  apply BitVec.eq_of_toNat_eq
  rw [← htop, ← hlow, toNat_encodeXY, toNat_topNibble, val_xField, val_yField, toNat_lowNibble]
  omega

end

/-! ## Selecting a row (30_encoding.md R94) -/

section
variable {op m p : Word} {top : BitVec 4}

theorem selects_of_top (htop : topNibble op = top) (hm : m = 0xF000#16)
    (hp : p = encodeA top 0#12) : op &&& m = p := by
  rw [hm, hp, mask_F000, htop]

theorem selects_of_top_low {low : BitVec 4} (htop : topNibble op = top)
    (hlow : lowNibble op = low) (hm : m = 0xF00F#16) (hp : p = encodeXY top 0 0 low) :
    op &&& m = p := by
  rw [hm, hp, mask_F00F, htop, hlow]

theorem selects_of_top_kk {kk : Byte} (htop : topNibble op = top) (hkk : kkField op = kk)
    (hm : m = 0xF0FF#16) (hp : p = encodeXK top 0 kk) : op &&& m = p := by
  rw [hm, hp, mask_F0FF, htop, hkk]

end

/-! ## Undefined slots decode to no-ops (30_encoding.md R90) -/

theorem undefinedSlot8_of_ne {sel : BitVec 4} (hlow : ∀ k : Fin 8, sel ≠ BitVec.ofNat 4 k.val)
    (hE : sel ≠ 0xE#4) : undefinedSlot8 sel = true := by
  revert sel
  decide

section
variable {op : Word}

theorem decodeFamily0_of_undefined (h : undefinedSlot0 (lowNibble op) = true) :
    decodeFamily0 op = .nop0 (nnnField op) := by
  unfold decodeFamily0
  split
  case h_3 => rfl
  all_goals
    next hlow =>
      rw [hlow] at h
      exact absurd h (by decide)

theorem decodeFamily8_of_undefined (h : undefinedSlot8 (lowNibble op) = true) :
    decodeFamily8 op = .nop8 (nnnField op) := by
  unfold decodeFamily8
  split
  case h_10 => rfl
  all_goals
    next hlow =>
      rw [hlow] at h
      exact absurd h (by decide)

theorem decodeFamilyE_of_undefined (h : undefinedSlotE (lowNibble op) = true) :
    decodeFamilyE op = .nopE (nnnField op) := by
  unfold decodeFamilyE
  split
  case h_3 => rfl
  all_goals
    next hlow =>
      rw [hlow] at h
      exact absurd h (by decide)

theorem decodeFamilyF_of_undefined (h : undefinedSlotF (kkField op) = true) :
    decodeFamilyF op = .nopF (nnnField op) := by
  unfold decodeFamilyF
  split
  case h_10 => rfl
  all_goals
    next hkk =>
      rw [hkk] at h
      exact absurd h (by decide)

end

/-! ## The operations with ignored bits (30_encoding.md R92) -/

section
variable {op : Word}

theorem decode_eq_cls (htop : topNibble op = 0x0#4) (hlow : lowNibble op = 0x0#4) :
    decode op = .cls := by
  simp [decode, decodeFamily0, htop, hlow]

theorem decode_eq_ret (htop : topNibble op = 0x0#4) (hlow : lowNibble op = 0xE#4) :
    decode op = .ret := by
  simp [decode, decodeFamily0, htop, hlow]

theorem decode_eq_seReg (htop : topNibble op = 0x5#4) :
    decode op = .seReg (xField op) (yField op) := by
  simp [decode, htop]

theorem decode_eq_sneReg (htop : topNibble op = 0x9#4) :
    decode op = .sneReg (xField op) (yField op) := by
  simp [decode, htop]

theorem decode_eq_skp (htop : topNibble op = 0xE#4) (hlow : lowNibble op = 0xE#4) :
    decode op = .skp (xField op) := by
  simp [decode, decodeFamilyE, htop, hlow]

theorem decode_eq_sknp (htop : topNibble op = 0xE#4) (hlow : lowNibble op = 0x1#4) :
    decode op = .sknp (xField op) := by
  simp [decode, decodeFamilyE, htop, hlow]

end

/-! ## Decoding an encoded instruction -/

/-- Where the encoder's word reaches a family, the low bits it carries select the slot. -/
theorem decode_encode {i : Instr} (h : i.wf = true) : decode (encode i) = i := by
  cases i with
  | nop0 low =>
    rw [encode, decode_family0 (topNibble_encodeA ..), decodeFamily0_of_undefined,
      nnnField_encodeA]
    rwa [lowNibble_encodeA]
  | nop8 low =>
    rw [encode, decode_family8 (topNibble_encodeA ..), decodeFamily8_of_undefined,
      nnnField_encodeA]
    rwa [lowNibble_encodeA]
  | nopE low =>
    rw [encode, decode_familyE (topNibble_encodeA ..), decodeFamilyE_of_undefined,
      nnnField_encodeA]
    rwa [lowNibble_encodeA]
  | nopF low =>
    rw [encode, decode_familyF (topNibble_encodeA ..), decodeFamilyF_of_undefined,
      nnnField_encodeA]
    rwa [kkField_encodeA]
  | jpReg nnn x =>
    have hx : xField (encodeA 0xB#4 nnn) = x := by
      rw [xField_encodeA]
      exact beq_iff_eq.1 h
    simp [encode, decode, hx]
  | cls | ret => rfl
  | ldReg | orReg | andReg | xorReg | addReg | subReg | shr | subn | shl =>
    simp [encode, decode, decodeFamily8]
  | skp | sknp => simp [encode, decode, decodeFamilyE, lowNibble_encodeXK]
  | ldVxDt | ldVxK | ldDtVx | ldStVx | addI | ldF | ldB | dump | load =>
    simp [encode, decode, decodeFamilyF]
  | _ => simp [encode, decode]

/-! ## What decoding gives -/

/-- The operations that ignore some bits of the opcode (30_encoding.md R92). -/
def Instr.ignoresBits : Instr → Bool
  | .cls | .ret | .seReg _ _ | .sneReg _ _ | .skp _ | .sknp _ => true
  | _ => false

/-- An instruction is one that the opcode may decode to: it is well formed, the opcode selects its
row, and its canonical opcode is this one unless it has ignored bits. -/
structure Agrees (op : Word) (i : Instr) : Prop where
  wf : i.wf = true
  selects : op &&& i.row.mask = i.row.pattern
  canonical : i.ignoresBits = false → encode i = op

section
variable {op : Word}

theorem decodeFamily0_agrees (htop : topNibble op = 0x0#4) : Agrees op (decodeFamily0 op) := by
  unfold decodeFamily0
  split
  next hlow => exact ⟨rfl, selects_of_top_low htop hlow rfl rfl, Bool.noConfusion⟩
  next hlow => exact ⟨rfl, selects_of_top_low htop hlow rfl rfl, Bool.noConfusion⟩
  next =>
    refine ⟨?_, selects_of_top htop rfl rfl, fun _ => encodeA_fields htop⟩
    simp_all [Instr.wf, undefinedSlot0]

theorem decodeFamily8_agrees (htop : topNibble op = 0x8#4) : Agrees op (decodeFamily8 op) := by
  unfold decodeFamily8
  split
  case h_10 =>
    refine ⟨?_, selects_of_top htop rfl rfl, fun _ => encodeA_fields htop⟩
    rw [Instr.wf, lowNibble_of_nnnField]
    exact undefinedSlot8_of_ne (fun k => by fin_cases k <;> assumption) ‹_›
  all_goals
    next hlow =>
      exact ⟨rfl, selects_of_top_low htop hlow rfl rfl, fun _ => encodeXY_fields htop hlow⟩

theorem decodeFamilyE_agrees (htop : topNibble op = 0xE#4) : Agrees op (decodeFamilyE op) := by
  unfold decodeFamilyE
  split
  next hlow => exact ⟨rfl, selects_of_top_low htop hlow rfl rfl, Bool.noConfusion⟩
  next hlow => exact ⟨rfl, selects_of_top_low htop hlow rfl rfl, Bool.noConfusion⟩
  next =>
    refine ⟨?_, selects_of_top htop rfl rfl, fun _ => encodeA_fields htop⟩
    simp_all [Instr.wf, undefinedSlotE]

theorem decodeFamilyF_agrees (htop : topNibble op = 0xF#4) : Agrees op (decodeFamilyF op) := by
  unfold decodeFamilyF
  split
  case h_10 =>
    refine ⟨?_, selects_of_top htop rfl rfl, fun _ => encodeA_fields htop⟩
    simp_all [Instr.wf, undefinedSlotF, definedSlotsF]
  all_goals
    next hkk =>
      exact ⟨rfl, selects_of_top_kk htop hkk rfl rfl, fun _ => encodeXK_fields htop hkk⟩

/-- Outside the families the cases differ by the format of the instruction only; `Bnnn` also spells
its x twice. -/
theorem decode_agrees (op : Word) : Agrees op (decode op) := by
  unfold decode
  split
  case h_1 htop => exact decodeFamily0_agrees htop
  case h_9 htop => exact decodeFamily8_agrees htop
  case h_15 htop => exact decodeFamilyE_agrees htop
  case h_16 =>
    exact decodeFamilyF_agrees (topNibble_eq_F fun k => by fin_cases k <;> assumption)
  case h_2 htop | h_3 htop | h_11 htop =>
    exact ⟨rfl, selects_of_top htop rfl rfl, fun _ => encodeA_fields htop⟩
  case h_4 htop | h_5 htop | h_7 htop | h_8 htop | h_13 htop =>
    exact ⟨rfl, selects_of_top htop rfl rfl, fun _ => encodeXK_fields htop rfl⟩
  case h_6 htop | h_10 htop =>
    exact ⟨rfl, selects_of_top htop rfl rfl, Bool.noConfusion⟩
  case h_12 htop =>
    exact ⟨beq_iff_eq.2 (xField_of_nnnField op), selects_of_top htop rfl rfl,
      fun _ => encodeA_fields htop⟩
  case h_14 htop =>
    exact ⟨rfl, selects_of_top htop rfl rfl, fun _ => encodeXY_fields htop rfl⟩

theorem row_decode_of_selects {i : Instr} (hi : i.isNop = false)
    (h : op &&& i.row.mask = i.row.pattern) : (decode op).row = i.row := by
  cases i with
  | nop0 | nop8 | nopE | nopF => exact Bool.noConfusion hi
  | cls | ret =>
    simp only [Instr.row] at h ⊢
    obtain ⟨htop, hlow⟩ := (mask_F00F_eq rfl).1 h
    rw [decode_family0 htop, decodeFamily0, hlow]
    rfl
  | ldReg | orReg | andReg | xorReg | addReg | subReg | shr | subn | shl =>
    simp only [Instr.row] at h ⊢
    obtain ⟨htop, hlow⟩ := (mask_F00F_eq rfl).1 h
    rw [decode_family8 htop, decodeFamily8, hlow]
    rfl
  | skp | sknp =>
    simp only [Instr.row] at h ⊢
    obtain ⟨htop, hlow⟩ := (mask_F00F_eq rfl).1 h
    rw [decode_familyE htop, decodeFamilyE, hlow]
    rfl
  | ldVxDt | ldVxK | ldDtVx | ldStVx | addI | ldF | ldB | dump | load =>
    simp only [Instr.row] at h ⊢
    obtain ⟨htop, hkk⟩ := (mask_F0FF_eq rfl).1 h
    rw [decode_familyF htop, decodeFamilyF, hkk]
    rfl
  | _ =>
    simp only [Instr.row] at h ⊢
    have htop := (mask_F000_eq rfl).1 h
    rw [decode, htop]
    rfl

theorem cases_of_ignoresBits {i : Instr} (h : i.ignoresBits = true) :
    i = .cls ∨ i = .ret ∨ (∃ x y, i = .seReg x y) ∨ (∃ x y, i = .sneReg x y) ∨
      (∃ x, i = .skp x) ∨ ∃ x, i = .sknp x := by
  cases i <;> simp_all [Instr.ignoresBits]

end

/-! ## The obligations -/

/-- Settles O2: the bytes of an opcode decode as the opcode does. -/
theorem encodeThenDecodeGivesInstruction : Obligations.EncodeThenDecodeGivesInstruction := by
  intro i rest h
  rw [encodeBytes, decodeBytes_opBytes, decode_encode h]

/-- Settles O3, from what decoding gives and the round trip of a well-formed instruction. -/
theorem decodeThenEncodeKeepsOpcode : Obligations.DecodeThenEncodeKeepsOpcode := by
  intro op
  obtain ⟨hwf, _, hcanonical⟩ := decode_agrees op
  refine ⟨hwf, decode_encode hwf, ?_⟩
  cases hbits : (decode op).ignoresBits with
  | false => exact .inl (hcanonical hbits)
  | true => exact .inr (cases_of_ignoresBits hbits)

/-- Settles O4: an opcode selects the row of what it decodes to, and an operation's row determines
the slot that the decoder reaches. -/
theorem opcodeSelectsRowByMask : Obligations.OpcodeSelectsRowByMask := by
  refine ⟨fun op i hi => ⟨row_decode_of_selects hi, fun hrow => ?_⟩, fun op hnone => ?_⟩
  · exact hrow ▸ (decode_agrees op).selects
  · by_contra hop
    exact hnone (decode op) (Bool.eq_false_iff.2 hop) (decode_agrees op).selects

/-- Settles O6: the fields that the decoder reads for these operations are the ones that agree. -/
theorem ignoredBitsHaveNoEffect : Obligations.IgnoredBitsHaveNoEffect := by
  intro a b htop
  have top_b : ∀ {t}, topNibble a = t → topNibble b = t := fun h => htop.symm.trans h
  refine ⟨fun h0 hlow hsel => ?_, fun hsel hmid => ?_, fun hE hx hlow hsel => ?_⟩
  · have low_b : ∀ {l}, lowNibble a = l → lowNibble b = l := fun h => hlow.symm.trans h
    rcases hsel with h | h
    · rw [decode_eq_cls h0 h, decode_eq_cls (top_b h0) (low_b h)]
    · rw [decode_eq_ret h0 h, decode_eq_ret (top_b h0) (low_b h)]
  · obtain ⟨hx, hy⟩ := fields_eq_of_middle hmid
    rcases hsel with h | h
    · rw [decode_eq_seReg h, decode_eq_seReg (top_b h), hx, hy]
    · rw [decode_eq_sneReg h, decode_eq_sneReg (top_b h), hx, hy]
  · have low_b : ∀ {l}, lowNibble a = l → lowNibble b = l := fun h => hlow.symm.trans h
    have hx : xField a = xField b := congrArg BitVec.toFin hx
    rcases hsel with h | h
    · rw [decode_eq_skp hE h, decode_eq_skp (top_b hE) (low_b h), hx]
    · rw [decode_eq_sknp hE h, decode_eq_sknp (top_b hE) (low_b h), hx]

/-- Settles O1, by running the decoder on each word. -/
theorem writtenWordsDecode : Obligations.WrittenWordsDecode := by
  unfold Obligations.WrittenWordsDecode
  decide

end Sys2Proof
end

section
/-!
The statements of 40_cycle.md: what one cycle runs, the cycle of a no-op, and why a cycle stops. For
each operation and each meaning that can stop, one lemma says exactly when it does and with which
reason; the statement about a whole cycle goes through the instructions and cites them.
-/

namespace Sys2Proof

/-! ## Undefined slots (30_encoding.md R90) -/

theorem undefinedSlotF_of_not_mem {sel : Byte}
    (h : sel.toNat ∉ [0x07, 0x0A, 0x15, 0x18, 0x1E, 0x29, 0x33, 0x55, 0x65]) :
    undefinedSlotF sel = true := by
  rw [undefinedSlotF, Bool.not_eq_true', List.contains_eq_mem, decide_eq_false_iff_not]
  exact fun hmem => h (List.mem_map_of_mem (f := BitVec.toNat) hmem)

theorem isNop_decode_of_undefinedSlot {op : Word} (h : UndefinedSlot op) :
    (decode op).isNop = true := by
  rcases h with ⟨htop, h0, hE⟩ | ⟨htop, h8, hE⟩ | ⟨htop, hE, h1⟩ | ⟨htop, hF⟩
  · rw [decode_family0 htop, decodeFamily0_of_undefined]
    · rfl
    · simp [undefinedSlot0, lowNibble, h0, hE]
  · rw [decode_family8 htop, decodeFamily8_of_undefined]
    · rfl
    · have h8 : 0x8#4 ≤ lowNibble op := h8
      simp [undefinedSlot8, h8, show lowNibble op ≠ 0xE#4 from hE]
  · rw [decode_familyE htop, decodeFamilyE_of_undefined]
    · rfl
    · simp [undefinedSlotE, lowNibble, hE, h1]
  · rw [decode_familyF htop, decodeFamilyF_of_undefined (undefinedSlotF_of_not_mem hF)]
    rfl

namespace Machine

theorem exec_of_isNop {i : Instr} (h : i.isNop = true) (s : State) : exec i s = .next s := by
  cases i with
  | nop0 | nop8 | nopE | nopF => rfl
  | _ => exact Bool.noConfusion h

/-! ## The phases of a cycle (40_cycle.md R111) -/

theorem decayTimer_eq_ite (t : Byte) : decayTimer t = if t = 0#8 then 0#8 else t - 1#8 := by
  unfold decayTimer
  split
  · assumption
  · rfl

theorem State.decay_eq (s : State) :
    s.decay = { s with
      DT := if s.DT = 0#8 then 0#8 else s.DT - 1#8
      ST := if s.ST = 0#8 then 0#8 else s.ST - 1#8 } := by
  rw [State.decay, decayTimer_eq_ite, decayTimer_eq_ite]

theorem decayAfter_eq_fault {o : Host.Outcome State Fault Refusal} {f : Fault} :
    decayAfter o = .fault f ↔ o = .fault f := by
  cases o <;> simp [decayAfter]

section
variable {s : State} {op : Word} {f : Fault}

theorem step_of_fetch_ok (hmark : s.undef = none) (hop : fetch s = .ok op) :
    step s = decayAfter (exec (decode op) s.advance) := by
  rw [step, hmark, hop]

theorem step_of_fetch_error (hmark : s.undef = none) (hf : fetch s = .error f) :
    step s = .fault f := by
  rw [step, hmark, hf]

/-- An unmarked state's cycle stops in the fetch or in the execute phase. -/
theorem step_eq_fault (hmark : s.undef = none) :
    step s = .fault f ↔
      fetch s = .error f ∨ ∃ op, fetch s = .ok op ∧ exec (decode op) s.advance = .fault f := by
  cases hop : fetch s with
  | error g => simp [step_of_fetch_error hmark hop]
  | ok op => simp [step_of_fetch_ok hmark hop, decayAfter_eq_fault]

end

/-! ## When an access stops (20_memory.md R52) -/

theorem memCell_eq_none {mode : MemOob} {a : Nat} :
    memCell mode a = none ↔ mode = .undefined ∧ 0xFFF < a := by
  refine ⟨fun h => ?_, fun ⟨hmode, ha⟩ => hmode ▸ memCell_of_undefined ha⟩
  have hnot := fun c hc => Option.eq_none_iff_forall_ne_some.1 h c (memCell_eq_some.2 hc)
  have ha : 0xFFF < a := not_le.1 fun hle => hnot a (.inl ⟨hle, rfl⟩)
  cases mode with
  | undefined => exact ⟨rfl, ha⟩
  | wrap12 => exact absurd (.inr ⟨ha, rfl, rfl⟩) (hnot (a % 4096))

section
variable {s : State} {a n : Nat} {f : Fault}

theorem State.memOob_of_not_accessible (h : ¬ s.Accessible a n) :
    s.params.memOob = .undefined := by
  by_contra hmode
  exact h fun k _ hnone => hmode (memCell_eq_none.1 hnone).1

theorem storeBytes_eq_error {bs : List Byte} :
    storeBytes s a bs = .error f ↔ ¬ s.Accessible a bs.length ∧ f = .undefined .memOob := by
  rw [← storeBytes_ok_iff]
  cases h : storeBytes s a bs with
  | error g => simp [storeBytes_error h, eq_comm]
  | ok t => simp

theorem loadBytes_eq_error :
    loadBytes s a n = .error f ↔ ¬ s.Accessible a n ∧ f = .undefined .memOob := by
  rw [← loadBytes_ok_iff]
  cases h : loadBytes s a n with
  | error g => simp [loadBytes_error h, eq_comm]
  | ok bs => simp

theorem memRead_eq_error_iff_above :
    memRead s a = .error f ↔
      s.params.memOob = .undefined ∧ 0xFFF < a ∧ f = .undefined .memOob := by
  rw [memRead_eq_error, memCell_eq_none, and_assoc]

/-- The fetch reads the bytes at pc and pc + 1 (40_cycle.md R112), so pc = 0xFFF stops already. -/
theorem fetch_eq_error :
    fetch s = .error f ↔
      s.params.memOob = .undefined ∧ 0xFFF ≤ s.pc.toNat ∧ f = .undefined .memOob := by
  unfold fetch
  cases hhi : memRead s s.pc.toNat with
  | error g =>
    obtain ⟨hmode, hpc, rfl⟩ := memRead_eq_error_iff_above.1 hhi
    simp [hmode, hpc.le, eq_comm]
  | ok hi =>
    cases hlo : memRead s (s.pc.toNat + 1) with
    | error g =>
      obtain ⟨hmode, hpc, rfl⟩ := memRead_eq_error_iff_above.1 hlo
      simp [hmode, Nat.le_of_lt_succ hpc, eq_comm]
    | ok lo =>
      refine iff_of_false (by simp) fun ⟨hmode, hpc, _⟩ => ?_
      have hstop := memRead_eq_error_iff_above.2 ⟨hmode, Nat.lt_succ_of_le hpc, rfl⟩
      exact absurd (hlo.symm.trans hstop) (by simp)

end

/-! ## When drawing stops (41_display.md R131, 60_exceptions.md R222) -/

theorem plotCell_eq_none {edge : DrawEdge} {X Y : Nat} :
    plotCell edge X Y = none ↔ edge = .undefined ∧ ¬ (X < 64 ∧ Y < 32) := by
  unfold plotCell
  split
  · next hgrid => simp [hgrid]
  · next hgrid => cases edge <;> simp [hgrid]

/-- Row `r` of the sprite cannot be drawn, for the reason in `f`: its byte is outside memory, or it
has a set bit off the grid where `DRAW_EDGE` leaves that undefined. -/
def State.RowStops (s : State) (x y : Index16) (r : Nat) (f : Fault) : Prop :=
  (memCell s.params.memOob (s.I.toNat + r) = none ∧ f = .undefined .memOob) ∨
  (s.params.drawEdge = .undefined ∧ s.RowOffGrid x y r ∧ f = .undefined .drawOffscreen)

section
variable {s : State} {x y : Index16} {r n : Nat} {c : Canvas} {f : Fault}

theorem State.rowOffGrid_of_memRead {b : Byte} (hb : memRead s (s.I.toNat + r) = .ok b) :
    s.RowOffGrid x y r ↔
      ∃ col, col < 8 ∧ b.getLsbD (7 - col) = true ∧
        ¬ (s.drawX x + col < 64 ∧ s.drawY y + r < 32) := by
  simp [State.RowOffGrid, State.SpriteBit, hb]

theorem mem_spriteColumns {col : Nat} : col ∈ spriteColumns ↔ col < 8 :=
  List.mem_range (n := 8)

theorem drawByte_spriteColumns_eq_error {b : Byte} (hb : memRead s (s.I.toNat + r) = .ok b) :
    drawByte s.params.drawEdge (s.drawX x) (s.drawY y + r) b spriteColumns c = .error f ↔
      s.RowStops x y r f := by
  have hcell : memCell s.params.memOob (s.I.toNat + r) ≠ none := by
    obtain ⟨a, ha, _⟩ := memRead_eq_ok.1 hb
    simp [ha]
  simp only [drawByte_eq_error, mem_spriteColumns, plotCell_eq_none, State.RowStops, hcell,
    State.rowOffGrid_of_memRead hb, false_and, false_or]
  constructor
  · rintro ⟨hf, col, hcol, hbit, hedge, hoff⟩
    exact ⟨hedge, ⟨col, hcol, hbit, hoff⟩, hf⟩
  · rintro ⟨hedge, ⟨col, hcol, hbit, hoff⟩, hf⟩
    exact ⟨hf, col, hcol, hbit, hedge, hoff⟩

theorem drawRows_of_rowStops (h : s.RowStops x y r f) :
    drawRows s (s.drawX x) (s.drawY y) (n + 1) r c = .error f := by
  unfold drawRows
  cases hb : memRead s (s.I.toNat + r) with
  | error g =>
    obtain ⟨_, rfl⟩ := memRead_eq_error.1 hb
    rcases h with ⟨_, rfl⟩ | ⟨_, ⟨_, _, ⟨b, hb', _⟩, _⟩, _⟩
    · rfl
    · exact absurd (hb.symm.trans hb') (by simp)
  | ok b => simp only [(drawByte_spriteColumns_eq_error hb).2 h]

theorem drawRows_of_not_rowStops (h : ∀ g, ¬ s.RowStops x y r g) :
    ∃ c', drawRows s (s.drawX x) (s.drawY y) (n + 1) r c =
      drawRows s (s.drawX x) (s.drawY y) n (r + 1) c' := by
  rw [drawRows]
  cases hb : memRead s (s.I.toNat + r) with
  | error g => exact absurd (.inl (memRead_eq_error.1 hb)) (h g)
  | ok b =>
    cases hc : drawByte s.params.drawEdge (s.drawX x) (s.drawY y + r) b spriteColumns c with
    | error g => exact absurd ((drawByte_spriteColumns_eq_error hb).1 hc) (h g)
    | ok c' => exact ⟨c', by simp only [hc]⟩

/-- Drawing n rows from row r on stops at the first of them that cannot be drawn. -/
theorem drawRows_eq_error :
    drawRows s (s.drawX x) (s.drawY y) n r c = .error f ↔
      ∃ k, k < n ∧ (∀ j, j < k → ∀ g, ¬ s.RowStops x y (r + j) g) ∧ s.RowStops x y (r + k) f := by
  induction n generalizing r c with
  | zero => simp [drawRows]
  | succ n ih =>
    by_cases hrow : ∃ g, s.RowStops x y r g
    · obtain ⟨g, hg⟩ := hrow
      rw [drawRows_of_rowStops hg, Except.error.injEq]
      constructor
      · rintro rfl
        exact ⟨0, n.succ_pos, by simp, hg⟩
      · rintro ⟨k, _, hbefore, hk⟩
        cases k with
        | zero => simpa [drawRows_of_rowStops hg] using drawRows_of_rowStops (n := n) (c := c) hk
        | succ k => exact absurd hg (hbefore 0 k.succ_pos g)
    · have hrow := not_exists.1 hrow
      obtain ⟨c', hc'⟩ := drawRows_of_not_rowStops (n := n) (c := c) hrow
      rw [hc', ih, Nat.exists_lt_succ_left]
      simp only [Nat.forall_lt_succ_left, Nat.add_zero, Nat.add_assoc, Nat.add_comm 1, hrow,
        not_lt_zero, IsEmpty.forall_iff, implies_true, and_false, false_or, not_false_iff, true_and]

end

/-! ## When an instruction stops (60_exceptions.md R221) -/

section
variable {s : State} {f : Fault}

theorem State.push_eq_error {w : Word} :
    s.push w = .error f ↔ 16 ≤ s.SP.toNat ∧ f = .undefined .stackOverflow := by
  unfold State.push
  split
  · next hlt => simp [hlt]
  · next hge => simp [raise, not_lt.1 hge, eq_comm]

/-- SP above 16 stops as an overflow: log 5. -/
theorem State.pop_eq_error :
    s.pop = .error f ↔
      (s.SP.toNat = 0 ∧ f = .undefined .stackUnderflow) ∨
      (16 < s.SP.toNat ∧ f = .undefined .stackOverflow) := by
  have hzero : s.SP = 0#8 ↔ s.SP.toNat = 0 := BitVec.toNat_inj.symm
  unfold State.pop
  simp only [hzero]
  split
  · next h0 => simp [raise, h0, eq_comm]
  · next h0 =>
    split
    · next hle => simp [h0]; omega
    · next hgt =>
      have hgt : 16 < s.SP.toNat := by omega
      simp [raise, h0, hgt, eq_comm]

theorem execRet_eq_fault : execRet s = .fault f ↔ s.pop = .error f := by
  unfold execRet
  cases s.pop <;> simp

theorem execCall_eq_fault {nnn : Addr12} :
    execCall nnn s = .fault f ↔ 16 ≤ s.SP.toNat ∧ f = .undefined .stackOverflow := by
  rw [← State.push_eq_error (w := s.pc)]
  unfold execCall
  cases s.push s.pc <;> simp

theorem keyPressed_eq_error {v : Byte} :
    keyPressed s v = .error f ↔
      16 ≤ v.toNat ∧ s.params.keyOob = .undefined ∧ f = .undefined .keyOob := by
  rw [← keyIndex_eq_error]
  unfold keyPressed
  cases keyIndex s.params.keyOob v <;> simp

theorem execSkp_eq_fault {x : Index16} :
    execSkp x s = .fault f ↔ keyPressed s (s.getV x) = .error f := by
  unfold execSkp
  cases keyPressed s (s.getV x) <;> simp

theorem execSknp_eq_fault {x : Index16} :
    execSknp x s = .fault f ↔ keyPressed s (s.getV x) = .error f := by
  unfold execSknp
  cases keyPressed s (s.getV x) <;> simp

theorem execLdB_eq_fault {x : Index16} :
    execLdB x s = .fault f ↔ ¬ s.Accessible s.I.toNat 3 ∧ f = .undefined .memOob :=
  conclude_eq_fault.trans storeBytes_eq_error

theorem execDump_eq_fault {x : Index16} :
    execDump x s = .fault f ↔ ¬ s.Accessible s.I.toNat (x.val + 1) ∧ f = .undefined .memOob := by
  rw [execDump, conclude_eq_fault, storeBytes_eq_error, length_firstRegisters]

theorem execLoad_eq_fault {x : Index16} :
    execLoad x s = .fault f ↔ ¬ s.Accessible s.I.toNat (x.val + 1) ∧ f = .undefined .memOob := by
  rw [← loadBytes_eq_error]
  unfold execLoad
  cases loadBytes s s.I.toNat (x.val + 1) <;> simp

theorem execLdVxK_ne_fault {x : Index16} : execLdVxK x s ≠ .fault f := by
  unfold execLdVxK
  cases firstPressed s.key <;> simp

theorem exists_rowStops_of_execDrw_fault {x y n : Index16} (h : execDrw x y n s = .fault f) :
    ∃ r, r < n.val ∧ s.RowStops x y r f := by
  obtain ⟨r, hr, _, hstops⟩ := drawRows_eq_error.1 (execDrw_eq_fault.1 h)
  exact ⟨r, hr, by rwa [Nat.zero_add] at hstops⟩

end

/-! ## The obligations -/

/-- Settles O5: the opcode decodes to a no-op, so only the advance and the decay phase are left. -/
theorem undefinedSlotIsNoOpCycle : Obligations.UndefinedSlotIsNoOpCycle := by
  refine ⟨fun s op hmark hop hslot => ?_, fun _ s =>
    ⟨exec_of_isNop rfl s, exec_of_isNop rfl s, exec_of_isNop rfl s, exec_of_isNop rfl s⟩⟩
  rw [step_of_fetch_ok hmark hop, exec_of_isNop (isNop_decode_of_undefinedSlot hslot), decayAfter,
    State.decay_eq]
  rfl

/-- Settles O55, by the instruction that the fetched opcode decodes to. A legal stack pointer
excludes the overflow of a return (log 5). The advance phase changes pc only, so what the execute
phase finds holds of the state that the cycle began in. -/
theorem cycleStopsOnlyForListedReasons : Obligations.CycleStopsOnlyForListedReasons := by
  intro s f hmark hSP h
  rcases (step_eq_fault hmark).1 h with hfetch | ⟨op, hop, hexec⟩
  · obtain ⟨hmode, hpc, hf⟩ := fetch_eq_error.1 hfetch
    exact .inl ⟨hf, hmode, hpc⟩
  refine .inr ⟨op, hop, ?_⟩
  generalize decode op = i at hexec ⊢
  cases i with
  | ret =>
    rcases State.pop_eq_error.1 (execRet_eq_fault.1 hexec) with ⟨h0, hf⟩ | ⟨hgt, _⟩
    · exact .inr (.inr (.inl ⟨hf, h0, rfl⟩))
    · exact absurd hSP (not_le.2 hgt)
  | call nnn =>
    obtain ⟨hge, hf⟩ := execCall_eq_fault.1 hexec
    exact .inr (.inl ⟨hf, le_antisymm hSP hge, nnn, rfl⟩)
  | skp x =>
    obtain ⟨hkey, hmode, hf⟩ := keyPressed_eq_error.1 (execSkp_eq_fault.1 hexec)
    exact .inr (.inr (.inr (.inl ⟨hf, hmode, x, .inl rfl, hkey⟩)))
  | sknp x =>
    obtain ⟨hkey, hmode, hf⟩ := keyPressed_eq_error.1 (execSknp_eq_fault.1 hexec)
    exact .inr (.inr (.inr (.inl ⟨hf, hmode, x, .inr rfl, hkey⟩)))
  | ldB x =>
    obtain ⟨hacc, hf⟩ := execLdB_eq_fault.1 hexec
    exact .inl ⟨hf, State.memOob_of_not_accessible hacc, .inr (.inl ⟨x, rfl, hacc⟩)⟩
  | dump x =>
    obtain ⟨hacc, hf⟩ := execDump_eq_fault.1 hexec
    exact .inl ⟨hf, State.memOob_of_not_accessible hacc, .inr (.inr ⟨x, .inl rfl, hacc⟩)⟩
  | load x =>
    obtain ⟨hacc, hf⟩ := execLoad_eq_fault.1 hexec
    exact .inl ⟨hf, State.memOob_of_not_accessible hacc, .inr (.inr ⟨x, .inr rfl, hacc⟩)⟩
  | drw x y n =>
    obtain ⟨r, hr, ⟨hcell, hf⟩ | ⟨hedge, hoff, hf⟩⟩ := exists_rowStops_of_execDrw_fault hexec
    · exact .inl ⟨hf, (memCell_eq_none.1 hcell).1,
        .inl ⟨x, y, n, rfl, fun hacc => hacc r hr hcell⟩⟩
    · exact .inr (.inr (.inr (.inr ⟨hf, hedge, x, y, n, rfl, r, hr, hoff⟩)))
  | ldVxK x => exact absurd hexec execLdVxK_ne_fault
  | _ => cases hexec

/-- Settles O11: the two bytes at pc are the word that the fetch gives. -/
theorem cycleRunsDecodedInstruction : Obligations.CycleRunsDecodedInstruction := by
  intro s hi lo i hmark hhi hlo hdecode
  obtain rfl : decode (combine hi lo) = i := congrArg Prod.fst (Except.ok.inj hdecode)
  have hop : fetch s = .ok (combine hi lo) := fetch_of_memRead hhi hlo
  rw [step_of_fetch_ok hmark hop, State.advance]
  cases exec (decode (combine hi lo)) { s with pc := s.pc + 2#16 } with
  | next t => exact congrArg Host.Outcome.next t.decay_eq
  | fault | refused => rfl

/-- Settles O13: the fetch stops, and the cycle with it. -/
theorem fetchBeyondMemoryStops : Obligations.FetchBeyondMemoryStops :=
  fun _ hmark hmode hpc => step_of_fetch_error hmark (fetch_eq_error.2 ⟨hmode, hpc, rfl⟩)

end Machine

end Sys2Proof
end

section
/-!
The statements of 41_display.md. The pixels that the drawing lemmas speak of are those that
`State.Covers` names; a defined draw has no row that stops it, so its canvas is there to be read.
-/

namespace Sys2Proof.Machine

/-! ## The pixels of a draw (41_display.md R131) -/

theorem plotCell_eq_pixel {edge : DrawEdge} {X Y : Nat} {col : Fin 64} {row : Fin 32} :
    plotCell edge X Y = some (some (col, row)) ↔ OnPixel edge X Y col row := by
  unfold plotCell
  split
  · next hgrid =>
    obtain ⟨hX, hY⟩ := hgrid
    cases edge <;>
      simp [OnPixel, Fin.ext_iff, Nat.mod_eq_of_lt hX, Nat.mod_eq_of_lt hY]
  · next hgrid =>
    cases edge with
    | wrap => simp [OnPixel, Fin.ext_iff]
    | clip | undefined =>
      refine iff_of_false (by simp) ?_
      rintro ⟨rfl, rfl⟩
      exact hgrid ⟨col.isLt, row.isLt⟩

section
variable {s : State} {x y n : Index16}

theorem rowsCover_iff_covers {col : Fin 64} {row : Fin 32} :
    RowsCover s (s.drawX x) (s.drawY y) 0 n.val col row ↔ s.Covers x y n col row := by
  simp only [RowsCover, ByteCovers, State.Covers, State.SpriteBit, mem_spriteColumns,
    plotCell_eq_pixel, Nat.zero_le, Nat.zero_add, true_and]
  constructor
  · rintro ⟨r, hr, b, hb, c, hc, hbit, hpixel⟩
    exact ⟨r, c, hr, hc, ⟨b, hb, hbit⟩, hpixel⟩
  · rintro ⟨r, c, hr, hc, ⟨b, hb, hbit⟩, hpixel⟩
    exact ⟨r, hr, b, hb, c, hc, hbit, hpixel⟩

theorem State.not_rowStops_iff {r : Nat} :
    (∀ f, ¬ s.RowStops x y r f) ↔ memCell s.params.memOob (s.I.toNat + r) ≠ none ∧
      ¬ (s.params.drawEdge = .undefined ∧ s.RowOffGrid x y r) := by
  simp only [State.RowStops, not_or, forall_and, ← not_exists, exists_and_left, exists_eq, and_true,
    ne_eq]

/-! ## What a draw does (41_display.md R132, R133) -/

theorem execDrw_eq_fault_iff_rowStops {f : Fault} :
    execDrw x y n s = .fault f ↔
      ∃ k, k < n.val ∧ (∀ j, j < k → ∀ g, ¬ s.RowStops x y j g) ∧ s.RowStops x y k f := by
  simp only [execDrw_eq_fault, drawRows_eq_error, Nat.zero_add]

theorem exists_execDrw_eq_next_of_defined (h : s.Defined (.drw x y n)) :
    ∃ t, execDrw x y n s = .next t := by
  obtain ⟨hacc, hgrid⟩ := h
  cases hrows : drawRows s (s.drawX x) (s.drawY y) n.val 0 ⟨s.fb, false⟩ with
  | ok c => exact ⟨_, execDrw_eq_next.2 ⟨c, hrows, rfl⟩⟩
  | error f =>
    obtain ⟨r, hr, hstops⟩ := exists_rowStops_of_execDrw_fault (execDrw_eq_fault.2 hrows)
    exact absurd hstops
      (State.not_rowStops_iff.2 ⟨hacc r hr, fun ⟨hedge, hoff⟩ => hgrid hedge r hr hoff⟩ f)

/-- The canvas of a completed draw: its pixels, and the collision that VF receives. -/
theorem exists_plotted_of_execDrw {t : State} (h : execDrw x y n s = .next t) :
    ∃ c, Canvas.Plotted ⟨s.fb, false⟩ c (s.Covers x y n) ∧ t.fb = c.fb ∧
      t.getV VF = if c.collision then 1#8 else 0#8 := by
  obtain ⟨c, hrows, rfl⟩ := execDrw_eq_next.1 h
  have hcovers : RowsCover s (s.drawX x) (s.drawY y) 0 n.val = s.Covers x y n :=
    funext₂ fun _ _ => propext rowsCover_iff_covers
  exact ⟨c, hcovers ▸ drawRows_plotted (by omega) hrows, rfl, State.getV_setV_self ..⟩

end

/-! ## The obligations -/

/-- Settles O17: a defined draw completes, its canvas has exactly the covered pixels toggled, and
the frame of the instruction leaves the rest. -/
theorem drawTogglesCoveredPixels : Obligations.DrawTogglesCoveredPixels := by
  intro x y n s hdef
  obtain ⟨t, h⟩ := exists_execDrw_eq_next_of_defined hdef
  obtain ⟨c, ⟨htoggled, hkept, hcoll⟩, hfb, hVF⟩ := exists_plotted_of_execDrw h
  have hcollision : c.collision = true ↔
      ∃ col row, s.Covers x y n col row ∧ s.fb.pixel col row = true := by
    simpa using hcoll
  refine ⟨t, h, fun col row => hfb ▸ htoggled col row, fun col row => hfb ▸ hkept col row,
    fun hon => ?_, fun hoff => ?_, fun r hr => exec_getV (i := .drw x y n) h hr,
    exec_frame (i := .drw x y n) h⟩
  · rw [hVF, if_pos (hcollision.2 hon)]
  · rw [hVF, if_neg fun hset => hoff (hcollision.1 hset)]

/-- Settles O18: the rows before the one that stops the draw are those that nothing stops. -/
theorem drawStopsAtFirstUndefinedRow : Obligations.DrawStopsAtFirstUndefinedRow := by
  intro x y n s f
  simp only [← State.not_rowStops_iff]
  exact execDrw_eq_fault_iff_rowStops

/-- Settles O16: the new framebuffer is the blank one, and the opcode bits `op[11:4]` do not
reach the decoder of family 0x0. -/
theorem clearScreenTurnsEveryPixelOff : Obligations.ClearScreenTurnsEveryPixelOff :=
  ⟨fun _ htop hlow => decode_eq_cls htop hlow,
    fun _ => ⟨_, rfl, Framebuffer.pixel_blank, rfl⟩⟩

end Sys2Proof.Machine
end

section
/-!
The statements of 42_control.md. A pop gives back what a push stored, so a return undoes a call;
a skip is a conditional advance, and a jump's target is a sum that 16 bits always hold.
-/

namespace Sys2Proof

/-! ## The opcodes of the jumps, the call and the immediate skips (30_encoding.md R89) -/

section
variable {op : Word}

theorem decode_eq_jp (htop : topNibble op = 0x1#4) : decode op = .jp (nnnField op) := by
  simp [decode, htop]

theorem decode_eq_call (htop : topNibble op = 0x2#4) : decode op = .call (nnnField op) := by
  simp [decode, htop]

theorem decode_eq_seByte (htop : topNibble op = 0x3#4) :
    decode op = .seByte (xField op) (kkField op) := by
  simp [decode, htop]

theorem decode_eq_sneByte (htop : topNibble op = 0x4#4) :
    decode op = .sneByte (xField op) (kkField op) := by
  simp [decode, htop]

theorem decode_eq_jpReg (htop : topNibble op = 0xB#4) :
    decode op = .jpReg (nnnField op) (xField op) := by
  simp [decode, htop]

end

/-! ## Jump targets (00_scope.md R11) -/

theorem toNat_zextAddr (nnn : Addr12) : (zextAddr nnn).toNat = nnn.toNat :=
  BitVec.toNat_setWidth_of_le (by decide)

/-- The largest target of a jump-with-offset is 0xFFF + 0xFF. -/
theorem toNat_zextAddr_add_zextByte (nnn : Addr12) (b : Byte) :
    (zextAddr nnn + zextByte b).toNat = nnn.toNat + b.toNat := by
  have hb : (zextByte b).toNat = b.toNat := BitVec.toNat_setWidth_of_le (by decide)
  have hnnn := nnn.isLt
  have hlt := b.isLt
  rw [BitVec.toNat_add_of_lt, toNat_zextAddr, hb]
  rw [toNat_zextAddr, hb]
  omega

namespace Machine

/-! ## Skips (42_control.md R140) -/

/-- A skip on a comparison's bit is the skip on the comparison. -/
theorem State.skipIf_eq_ite (s : State) {c : Bool} {p : Prop} [Decidable p] (hc : c = true ↔ p) :
    s.skipIf c = if p then { s with pc := s.pc + 2#16 } else s := by
  simp only [State.skipIf, State.advance, hc]

/-! ## Calls and returns (42_control.md R141, R143) -/

section
variable {s t u : State}

theorem execRet_of_occupied (hpos : 1 ≤ s.SP.toNat) (hle : s.SP.toNat ≤ 16) :
    execRet s = .next { s with SP := s.SP - 1#8, pc := s.stack[s.SP.toNat - 1] } := by
  have hne : s.SP ≠ 0#8 := fun h0 => by simp [h0] at hpos
  exact execRet_eq_next.2 ⟨_, _, State.pop_eq_ok.2 ⟨hne, by omega, rfl, rfl⟩, rfl⟩

theorem execCall_of_free (nnn : Addr12) (hlt : s.SP.toNat < 16) :
    execCall nnn s = .next { s with
      stack := s.stack.set s.SP.toNat s.pc, SP := s.SP + 1#8, pc := zextAddr nnn } :=
  execCall_eq_next.2 ⟨_, State.push_eq_ok.2 ⟨hlt, rfl⟩, rfl⟩

/-- A pop from the stack that a push left gives the pushed word and the SP before the push. -/
theorem State.pop_of_push {w : Word} (h : s.push w = .ok t) (hstack : u.stack = t.stack)
    (hSP : u.SP = t.SP) : u.pop = .ok (w, { u with SP := s.SP }) := by
  obtain ⟨hlt, rfl⟩ := State.push_eq_ok.1 h
  have hSP : u.SP = s.SP + 1#8 := hSP
  have hslot : u.SP.toNat - 1 = s.SP.toNat := by bv_omega
  refine State.pop_eq_ok.2 ⟨by bv_omega, by omega, ?_, ?_⟩
  · simp [hstack, hslot]
  · rw [hSP, BitVec.add_sub_cancel]

end

/-! ## The obligations -/

/-- Settles O21: the return's pop gives back the pc that the call pushed. -/
theorem returnResumesAfterCall : Obligations.ReturnResumesAfterCall := by
  intro nnn s t u hcall hstack hSP
  obtain ⟨v, hpush, rfl⟩ := execCall_eq_next.1 hcall
  exact execRet_eq_next.2 ⟨s.pc, _, State.pop_of_push hpush hstack hSP, rfl⟩

/-- Settles O19: where a pop succeeds or stops decides the return. -/
theorem returnPopsStack : Obligations.ReturnPopsStack :=
  ⟨fun _ htop hlow => decode_eq_ret htop hlow, fun _ =>
    ⟨execRet_of_occupied,
      fun h0 => execRet_eq_fault.2 (State.pop_eq_error.2 (.inl ⟨congrArg BitVec.toNat h0, rfl⟩)),
      fun habove => execRet_eq_fault.2 (State.pop_eq_error.2 (.inr ⟨habove, rfl⟩))⟩⟩

/-- Settles O20: where a push succeeds or stops decides the call. -/
theorem callPushesReturnAddress : Obligations.CallPushesReturnAddress :=
  ⟨fun _ htop => decode_eq_call htop, fun nnn _ =>
    ⟨execCall_of_free nnn, fun hfull => execCall_eq_fault.2 ⟨hfull, rfl⟩⟩⟩

/-- Settles O22: the twelve bits of the target are kept by the widening to pc. -/
theorem jumpSetsProgramCounter : Obligations.JumpSetsProgramCounter :=
  ⟨fun _ htop => decode_eq_jp htop, fun nnn s =>
    ⟨s.jumpTo (zextAddr nnn), rfl, toNat_zextAddr nnn, rfl⟩⟩

/-- Settles O23: each skip's bit is the Boolean form of its comparison. -/
theorem skipsCompareAndAdvance : Obligations.SkipsCompareAndAdvance :=
  ⟨fun _ htop => decode_eq_seByte htop, fun _ htop => decode_eq_sneByte htop,
    fun _ htop => decode_eq_seReg htop, fun _ htop => decode_eq_sneReg htop, fun _ _ _ s =>
    ⟨congrArg _ (s.skipIf_eq_ite beq_iff_eq), congrArg _ (s.skipIf_eq_ite bne_iff_ne),
      congrArg _ (s.skipIf_eq_ite beq_iff_eq), congrArg _ (s.skipIf_eq_ite bne_iff_ne)⟩⟩

/-- Settles O24: the sum does not wrap, and `JUMP_OFFSET_REG` names the register in it. -/
theorem jumpWithOffsetAddsRegister : Obligations.JumpWithOffsetAddsRegister := by
  refine ⟨fun _ htop => decode_eq_jpReg htop, fun nnn x s =>
    ⟨_, rfl, fun hvx => ?_, fun hv0 => ?_, rfl⟩⟩
  · rw [hvx]
    exact toNat_zextAddr_add_zextByte nnn (s.getV x)
  · rw [hv0]
    exact toNat_zextAddr_add_zextByte nnn (s.getV 0)

end Machine

end Sys2Proof
end

section
/-!
The statements of 43_alu.md. The five flag instructions write back one result and one flag, so what
each of them says is the value of its result, the value of its flag, and one lemma on the write-back
of 40_cycle.md R116.
-/

namespace Sys2Proof

/-- An opcode decodes to the well-formed instruction that it encodes. -/
theorem decode_eq_of_encode_eq {i : Instr} {op : Word} (hwf : i.wf = true) (h : encode i = op) :
    decode op = i :=
  h ▸ decode_encode hwf

namespace Machine

/-! ## Results and flags (43_alu.md R167 to R171) -/

@[simp] theorem toNat_flagByte (f : Bool) : (flagByte f).toNat = f.toNat := by
  cases f <;> rfl

theorem toNat_flagByte_decide (p : Prop) [Decidable p] :
    (flagByte (decide p)).toNat = if p then 1 else 0 := by
  rw [toNat_flagByte, Bool.toNat, Bool.cond_decide]

theorem toNat_subFlagged_result (a b : Byte) :
    ((subFlagged a b).result.toNat : Int) = ((a.toNat : Int) - b.toNat) % 256 := by
  have hb := b.isLt
  have hsub : (subFlagged a b).result.toNat = (2 ^ 8 - b.toNat + a.toNat) % 2 ^ 8 :=
    BitVec.toNat_sub a b
  omega

theorem toNat_shrFlagged_result (b : Byte) : (shrFlagged b).result.toNat = b.toNat / 2 :=
  (BitVec.toNat_ushiftRight b 1).trans (Nat.shiftRight_eq_div_pow _ 1)

theorem toNat_shrFlagged_flag (b : Byte) :
    (flagByte (shrFlagged b).flag).toNat = b.toNat % 2 := by
  rw [toNat_flagByte, shrFlagged, BitVec.getLsbD, Nat.toNat_testBit, pow_zero, Nat.div_one]

theorem toNat_shlFlagged_result (b : Byte) : (shlFlagged b).result.toNat = 2 * b.toNat % 256 := by
  rw [shlFlagged, BitVec.toNat_shiftLeft, Nat.shiftLeft_eq, Nat.mul_comm, pow_one]

/-- Bit 7 is the top bit, so nothing stands above it. -/
theorem toNat_shlFlagged_flag (b : Byte) :
    (flagByte (shlFlagged b).flag).toNat = b.toNat / 128 := by
  have hb := b.isLt
  rw [toNat_flagByte, shlFlagged, BitVec.getLsbD, Nat.toNat_testBit]
  omega

/-! ## The write-back (40_cycle.md R116) -/

section
variable {x : Index16} {s : State} {v : Flagged}

theorem State.getV_writeResultAndFlag_self (hx : x ≠ VF) :
    (s.writeResultAndFlag x v).getV x = v.result := by
  rw [State.writeResultAndFlag, if_pos hx, State.getV_setV_of_ne hx, State.getV_setV_self]

theorem State.getV_VF_writeResultAndFlag (h : x ≠ VF ∨ s.params.vfAlias = .flagWins) :
    (s.writeResultAndFlag x v).getV VF = flagByte v.flag := by
  rcases s.writeResultAndFlag_cases x v with ⟨_, hw⟩ | ⟨_, _, hw⟩ | ⟨hx, hp, _⟩
  · rw [hw, State.getV_setV_self]
  · rw [hw, State.getV_setV_self]
  · simp [hx, hp] at h

theorem State.getV_VF_writeResultAndFlag_of_resultWins (hx : x = VF)
    (hp : s.params.vfAlias = .resultWins) :
    (s.writeResultAndFlag x v).getV VF = v.result := by
  rw [State.writeResultAndFlag, if_neg (not_not.2 hx), hp, State.getV_setV_self]

/-- What an instruction that ends in the write-back leaves, where `R` holds of its result and `f` is
its flag's value. -/
theorem exists_next_of_writeResultAndFlag {i : Instr} {f : Nat} (R : Byte → Prop)
    (hexec : exec i s = .next (s.writeResultAndFlag x v)) (hresult : R v.result)
    (hflag : (flagByte v.flag).toNat = f) :
    ∃ t, exec i s = .next t ∧ (x ≠ VF → R (t.getV x)) ∧
      (x ≠ VF ∨ s.params.vfAlias = .flagWins → (t.getV VF).toNat = f) ∧
      (x = VF → s.params.vfAlias = .resultWins → R (t.getV VF)) ∧
      (∀ r, r ≠ x → r ≠ VF → t.getV r = s.getV r) ∧ t = { s with V := t.V } := by
  refine ⟨_, hexec, fun hx => ?_, fun h => ?_, fun hx hp => ?_, fun r hx hf => ?_, ?_⟩
  · rwa [State.getV_writeResultAndFlag_self hx]
  · rwa [State.getV_VF_writeResultAndFlag h]
  · rwa [State.getV_VF_writeResultAndFlag_of_resultWins hx hp]
  · exact State.getV_writeResultAndFlag_of_ne hx hf s v
  · exact s.writeResultAndFlag_eq x v

end

/-! ## The random byte (40_cycle.md R119) -/

section
variable {s : State}

theorem rand8_of_cons {r : Byte} {rest : List Byte} (h : s.rnd = r :: rest) :
    rand8 s = (r, { s with rnd := rest }) := by
  simp [rand8, h]

theorem rand8_of_nil (h : s.rnd = []) :
    rand8 s = (Config.randomByte s.rndCount, { s with rndCount := s.rndCount + 1 }) := by
  simp [rand8, h]

theorem execRnd_of_rand8 {r : Byte} {t : State} (h : rand8 s = (r, t)) (x : Index16) (kk : Byte) :
    execRnd x kk s = .next (t.setV x (r &&& kk)) := by
  rw [execRnd, h]

end

/-! ## The obligations -/

/-- Settles O25: each is one register write, and a byte's sum is modulo 256. -/
theorem immediateFormsWriteVx : Obligations.ImmediateFormsWriteVx :=
  ⟨fun _ htop => decode_eq_of_encode_eq rfl (encodeXK_fields htop rfl),
    fun _ htop => decode_eq_of_encode_eq rfl (encodeXK_fields htop rfl),
    fun x kk s => ⟨rfl, _, rfl, BitVec.toNat_add (s.getV x) kk⟩⟩

/-- Settles O26: each is one register write. -/
theorem registerLogicWritesVx : Obligations.RegisterLogicWritesVx :=
  ⟨fun _ htop =>
    ⟨fun hlow => decode_eq_of_encode_eq rfl (encodeXY_fields htop hlow),
      fun hlow => decode_eq_of_encode_eq rfl (encodeXY_fields htop hlow),
      fun hlow => decode_eq_of_encode_eq rfl (encodeXY_fields htop hlow),
      fun hlow => decode_eq_of_encode_eq rfl (encodeXY_fields htop hlow)⟩,
    fun _ _ _ => ⟨rfl, rfl, rfl, rfl⟩⟩

/-- Settles O27: the write-back of the sum and the carry. -/
theorem addRegistersWritesCarry : Obligations.AddRegistersWritesCarry :=
  ⟨fun _ htop hlow => decode_eq_of_encode_eq rfl (encodeXY_fields htop hlow), fun x y s =>
    exists_next_of_writeResultAndFlag
      (fun b => b.toNat = ((s.getV x).toNat + (s.getV y).toNat) % 256) rfl
      (BitVec.toNat_ofNat _ 8) (toNat_flagByte_decide _)⟩

/-- Settles O28: the write-back of the difference and the strict comparison. -/
theorem subtractWritesStrictComparison : Obligations.SubtractWritesStrictComparison :=
  ⟨fun _ htop hlow => decode_eq_of_encode_eq rfl (encodeXY_fields htop hlow), fun x y s =>
    exists_next_of_writeResultAndFlag
      (fun b => (b.toNat : Int) = (((s.getV x).toNat : Int) - (s.getV y).toNat) % 256) rfl
      (toNat_subFlagged_result _ _) (toNat_flagByte_decide _)⟩

/-- Settles O29: the write-back of Vy >> 1 and bit 0 of Vy. -/
theorem shiftRightShiftsVy : Obligations.ShiftRightShiftsVy :=
  ⟨fun _ htop hlow => decode_eq_of_encode_eq rfl (encodeXY_fields htop hlow), fun _ y s =>
    exists_next_of_writeResultAndFlag (fun b => b.toNat = (s.getV y).toNat / 2) rfl
      (toNat_shrFlagged_result _) (toNat_shrFlagged_flag _)⟩

/-- Settles O30: the write-back of O28 with the operands exchanged. -/
theorem reversedSubtractWritesStrictComparison :
    Obligations.ReversedSubtractWritesStrictComparison :=
  ⟨fun _ htop hlow => decode_eq_of_encode_eq rfl (encodeXY_fields htop hlow), fun x y s =>
    exists_next_of_writeResultAndFlag
      (fun b => (b.toNat : Int) = (((s.getV y).toNat : Int) - (s.getV x).toNat) % 256) rfl
      (toNat_subFlagged_result _ _) (toNat_flagByte_decide _)⟩

/-- Settles O31: the write-back of Vy << 1 and bit 7 of Vy. -/
theorem shiftLeftShiftsVy : Obligations.ShiftLeftShiftsVy :=
  ⟨fun _ htop hlow => decode_eq_of_encode_eq rfl (encodeXY_fields htop hlow), fun _ y s =>
    exists_next_of_writeResultAndFlag (fun b => b.toNat = 2 * (s.getV y).toNat % 256) rfl
      (toNat_shlFlagged_result _) (toNat_shlFlagged_flag _)⟩

/-- Settles O32: whether a byte is lined up decides which byte is taken. -/
theorem randomAndMasksFreeByte : Obligations.RandomAndMasksFreeByte :=
  ⟨fun _ htop => decode_eq_of_encode_eq rfl (encodeXK_fields htop rfl), fun x kk _ =>
    ⟨fun _ _ h => execRnd_of_rand8 (rand8_of_cons h) x kk,
      fun h => execRnd_of_rand8 (rand8_of_nil h) x kk⟩⟩

end Machine

end Sys2Proof
end

section
/-!
The statements of 44_index_memory.md. A store and a load of a list are each described once over the
cells that `State.Accessible` and `State.Reaches` name; BCD-decompose and register-dump are the
store of their lists, and the round-trip law composes the dump with the load.
-/

namespace Sys2Proof.Machine

/-! ## The values of I (44_index_memory.md R181, R182) -/

theorem toNat_add_zextByte (w : Word) (b : Byte) :
    (w + zextByte b).toNat = (w.toNat + b.toNat) % 65536 := by
  rw [BitVec.toNat_add, BitVec.toNat_setWidth_of_le (by decide)]

/-- The largest glyph address is 0x050 + 5 × 255. -/
theorem toNat_glyphAddress (v : Byte) : (glyphAddress v).toNat = 0x050 + 5 * v.toNat := by
  have hv := v.isLt
  rw [glyphAddress, Config.fontBase, BitVec.toNat_ofNat]
  omega

/-! ## Decimal digits (44_index_memory.md R183) -/

/-- A number that a byte holds, as a byte and back. -/
theorem toNat_ofNat_of_le_toNat {n : Nat} (v : Byte) (h : n ≤ v.toNat) :
    (BitVec.ofNat 8 n).toNat = n :=
  (BitVec.toNat_ofNat n 8).trans (Nat.mod_eq_of_lt (Nat.lt_of_le_of_lt h v.isLt))

section
variable {s t : State} {x r : Index16}

/-! ## Stores (44_index_memory.md R183, R184) -/

/-- A store of a list to defined addresses: each byte in the cell of its address, all else as
before. -/
theorem exists_next_of_storeBytes {a : Nat} {bs : List Byte} (hm : s.mem.wf = true)
    (hlen : bs.length ≤ Config.memSize) (hacc : s.Accessible a bs.length) :
    ∃ t, conclude (storeBytes s a bs) = .next t ∧ t = { s with mem := t.mem } ∧
      (∀ j (hj : j < bs.length) c, memCell s.params.memOob (a + j) = some c →
        t.mem.read c = bs[j]) ∧
      ∀ c, ¬ s.Reaches a bs.length c → t.mem.read c = s.mem.read c := by
  obtain ⟨t, h⟩ := storeBytes_ok_iff.2 hacc
  exact ⟨t, conclude_eq_next.2 h, storeBytes_eq h, storeBytes_read hm hlen h,
    (storeBytes_frame hm h).2⟩

theorem length_firstRegisters_le_memSize (s : State) (x : Index16) :
    (s.firstRegisters x).length ≤ Config.memSize := by
  rw [length_firstRegisters, Config.memSize]
  omega

/-- A completed register-dump found every address defined. -/
theorem accessible_of_execDump (h : execDump x s = .next t) :
    s.Accessible s.I.toNat (x.val + 1) :=
  length_firstRegisters s x ▸ storeBytes_ok_iff.1 ⟨t, conclude_eq_next.1 h⟩

/-! ## Loads (44_index_memory.md R185) -/

theorem exists_execLoad_eq_next (hacc : s.Accessible s.I.toNat (x.val + 1)) :
    ∃ t, execLoad x s = .next t := by
  obtain ⟨bs, hbs⟩ := loadBytes_ok_iff.2 hacc
  exact ⟨_, execLoad_eq_next.2 ⟨bs, hbs, rfl⟩⟩

/-- After a register-load, register r holds the byte in the cell of I + r. -/
theorem getV_execLoad {c : Nat} (h : execLoad x s = .next t) (hr : r ≤ x)
    (hc : memCell s.params.memOob (s.I.toNat + r.val) = some c) : t.getV r = s.mem.read c := by
  obtain ⟨bs, hbs, rfl⟩ := execLoad_eq_next.1 h
  obtain ⟨hlen, _, hread⟩ := loadBytes_eq_ok hbs
  have hj : r.val < bs.length := hlen ▸ Nat.lt_succ_of_le hr
  calc (setRegisters s.V 0 bs)[r.val]
    _ = bs[r.val] := by
      rw [getElem_setRegisters r.val r.isLt (by omega), dif_pos ⟨Nat.zero_le _, hj⟩]
      rfl
    _ = s.mem.read c := hread r.val hj c hc

end

/-! ## The obligations -/

/-- Settles O35: the store of the list of the three digits, each of which a byte holds. -/
theorem bcdStoresDecimalDigits : Obligations.BcdStoresDecimalDigits := by
  refine ⟨fun _ htop hkk => decode_eq_of_encode_eq rfl (encodeXK_fields htop hkk),
    fun x s hm hacc => ?_⟩
  obtain ⟨t, h, hframe, hread, hkept⟩ := exists_next_of_storeBytes
    (bs := decimalDigits (s.getV x)) hm (by decide : 3 ≤ Config.memSize) hacc
  have htens : (s.getV x).toNat / 10 % 10 ≤ (s.getV x).toNat :=
    (Nat.mod_le _ _).trans (Nat.div_le_self _ _)
  refine ⟨t, h, hframe, fun c hc => ?_, fun c hc => ?_, fun c hc => ?_, hkept⟩
  · rw [hread 0 (by decide : 0 < 3) c hc]
    exact toNat_ofNat_of_le_toNat (s.getV x) (Nat.div_le_self _ _)
  · rw [hread 1 (by decide : 1 < 3) c hc]
    exact toNat_ofNat_of_le_toNat (s.getV x) htens
  · rw [hread 2 (by decide : 2 < 3) c hc]
    exact toNat_ofNat_of_le_toNat (s.getV x) (Nat.mod_le _ _)

/-- Settles O36: the store of the list of the registers V0 to Vx. -/
theorem dumpStoresRegisters : Obligations.DumpStoresRegisters := by
  refine ⟨fun _ htop hkk => decode_eq_of_encode_eq rfl (encodeXK_fields htop hkk),
    fun x s hm hacc => ?_⟩
  have hlen := length_firstRegisters s x
  obtain ⟨t, h, hframe, hread, hkept⟩ := exists_next_of_storeBytes hm
    (length_firstRegisters_le_memSize s x) (hlen.symm ▸ hacc)
  refine ⟨t, h, hframe, fun r c hr hc => ?_, hlen ▸ hkept⟩
  rw [hread r.val (hlen ▸ Nat.lt_succ_of_le hr) c hc, getElem_firstRegisters]
  rfl

/-- Settles O37: a load of defined addresses completes, and its frame leaves the rest. -/
theorem loadReadsRegisters : Obligations.LoadReadsRegisters := by
  refine ⟨fun _ htop hkk => decode_eq_of_encode_eq rfl (encodeXK_fields htop hkk),
    fun x s hacc => ?_⟩
  obtain ⟨t, h⟩ := exists_execLoad_eq_next hacc
  exact ⟨t, h, exec_frame (i := .load x) h, fun _ _ hr hc => getV_execLoad h hr hc,
    fun _ hxr => exec_getV (i := .load x) h (not_le.2 hxr)⟩

/-- Settles O38: each of the three stops exactly where an address is not defined. -/
theorem memoryInstructionsStopOutsideMemory : Obligations.MemoryInstructionsStopOutsideMemory :=
  fun _ _ => ⟨fun hacc => execLdB_eq_fault.2 ⟨hacc, rfl⟩, fun hacc =>
    ⟨execDump_eq_fault.2 ⟨hacc, rfl⟩, execLoad_eq_fault.2 ⟨hacc, rfl⟩⟩⟩

/-- Settles O39: the dump leaves I and the parameters, so the load reaches the cells of the dump,
and what it finds at I + r is register r. -/
theorem dumpThenLoadRestoresRegisters : Obligations.DumpThenLoadRestoresRegisters := by
  intro x s t u hm hdump hI hparams hmem
  have hframe : t = { s with mem := t.mem } := exec_frame hdump
  have htp : t.params = s.params := (congrArg State.params hframe :)
  have hIs : u.I = s.I := hI.trans (congrArg State.I hframe :)
  have hps : u.params = s.params := hparams.trans htp
  have hacc : u.Accessible u.I.toNat (x.val + 1) := by
    rw [State.Accessible, hIs, hps]
    exact accessible_of_execDump hdump
  obtain ⟨w, hload⟩ := exists_execLoad_eq_next hacc
  refine ⟨w, hload, fun r hr => ?_, exec_frame (i := .load x) hload⟩
  obtain ⟨c, hc, hdumped⟩ := memRead_eq_ok.1 (memRead_execDump hm hdump hr)
  rw [htp] at hc
  calc w.getV r
    _ = u.mem.read c := getV_execLoad hload hr (by rwa [hIs, hps])
    _ = t.mem.read c := hmem c ⟨r.val, Nat.lt_succ_of_le hr, hc⟩
    _ = s.getV r := hdumped.symm

/-- Settles O33: the widened address keeps its twelve bits, and the sum is that of 16 bits. -/
theorem indexSetAndAdd : Obligations.IndexSetAndAdd :=
  ⟨fun _ htop => decode_eq_of_encode_eq rfl (encodeA_fields htop),
    fun _ htop hkk => decode_eq_of_encode_eq rfl (encodeXK_fields htop hkk), fun nnn x s =>
    ⟨⟨_, rfl, toNat_zextAddr nnn, rfl⟩, _, rfl, toNat_add_zextByte s.I (s.getV x), rfl⟩⟩

/-- Settles O34: the address of the last byte value's glyph is still far below 65536. -/
theorem fontAddressPointsToGlyph : Obligations.FontAddressPointsToGlyph :=
  ⟨fun _ htop hkk => decode_eq_of_encode_eq rfl (encodeXK_fields htop hkk), fun x s =>
    ⟨_, rfl, toNat_glyphAddress (s.getV x), rfl⟩⟩

end Sys2Proof.Machine
end

section
/-!
The statements of 45_keys_timers.md. A key skip is a skip on the one key that `KeyIndex` names;
a timer holds what its setter and the decay of the same cycle left, less one for each later cycle.
-/

namespace Sys2Proof.Machine

/-! ## The keypad (45_keys_timers.md R200 to R204) -/

/-- `KeyIndex` names a key below 16, or the low nibble's key where `KEY_OOB` says so. -/
theorem keyIndex_eq_ok {mode : KeyOob} {v : Byte} {k : Index16} :
    keyIndex mode v = .ok k ↔
      (v.toNat < 16 ∧ k.val = v.toNat) ∨
      (16 ≤ v.toNat ∧ mode = .lowNibble ∧ k.val = v.toNat % 16) := by
  unfold keyIndex
  split
  · next hlt => simp [hlt, Fin.ext_iff, eq_comm]
  · next hge =>
    cases mode with
    | lowNibble => simp [hge, not_lt.1 hge, Fin.ext_iff, eq_comm]
    | undefined => simp [raise, hge]

section
variable {s : State} {x k : Index16}

theorem execSkp_of_keyIndex (hk : keyIndex s.params.keyOob (s.getV x) = .ok k) :
    execSkp x s = .next (s.skipIf s.key[k.val]) :=
  execSkp_eq_next.2 ⟨_, keyPressed_eq_ok.2 ⟨k, hk, rfl⟩, rfl⟩

theorem execSknp_of_keyIndex (hk : keyIndex s.params.keyOob (s.getV x) = .ok k) :
    execSknp x s = .next (s.skipIf (!s.key[k.val])) :=
  execSknp_eq_next.2 ⟨_, keyPressed_eq_ok.2 ⟨k, hk, rfl⟩, rfl⟩

theorem execLdVxK_of_pressed (h : firstPressed s.key = some k) :
    execLdVxK x s = .next (s.setV x (BitVec.ofNat 8 k.val)) := by
  rw [execLdVxK, h]

theorem execLdVxK_of_none_pressed (h : firstPressed s.key = none) :
    execLdVxK x s = .next s.rewind := by
  rw [execLdVxK, h]

end

/-! ## The timers across cycles (45_keys_timers.md R207) -/

section
variable {s t u : State} {op : Word} {x : Index16}

theorem toNat_DT_of_step_ldDtVx (hop : fetch s = .ok op) (h : step s = .next t)
    (hset : decode op = .ldDtVx x) : t.DT.toNat = (s.getV x).toNat - 1 := by
  obtain ⟨_, u, hexec, rfl⟩ := exec_of_step hop h
  rw [hset] at hexec
  obtain rfl := Host.Outcome.next.inj hexec
  exact toNat_decayTimer (s.getV x)

theorem toNat_ST_of_step_ldStVx (hop : fetch s = .ok op) (h : step s = .next t)
    (hset : decode op = .ldStVx x) : t.ST.toNat = (s.getV x).toNat - 1 := by
  obtain ⟨_, u, hexec, rfl⟩ := exec_of_step hop h
  rw [hset] at hexec
  obtain rfl := Host.Outcome.next.inj hexec
  exact toNat_decayTimer (s.getV x)

/-- A count that each of the cycles lowers by 1, and none below 0, is lowered by their number. -/
theorem Cycles.count_eq_sub {P : Instr → Prop} {count : State → Nat}
    (hcycle : ∀ s t op, fetch s = .ok op → step s = .next t → P (decode op) →
      count t = count s - 1) {j : Nat} (h : Cycles P j s t) : count t = count s - j := by
  induction j generalizing s with
  | zero => exact congrArg count h
  | succ j ih =>
    obtain ⟨op, u, hop, hP, hstep, hrest⟩ := h
    calc count t
      _ = count u - j := ih hrest
      _ = count s - 1 - j := by rw [hcycle s u op hop hstep hP]
      _ = count s - (j + 1) := by rw [Nat.sub_sub, Nat.add_comm]

end

/-! ## The obligations -/

/-- Settles O42: the scan finds the lowest pressed key, or none. -/
theorem waitForKeyTakesLowestKey : Obligations.WaitForKeyTakesLowestKey :=
  ⟨fun _ htop hkk => decode_eq_of_encode_eq rfl (encodeXK_fields htop hkk), fun _ _ =>
    ⟨fun _ hk hlow => execLdVxK_of_pressed (firstPressed_eq_some.2 ⟨hk, hlow⟩),
      fun hnone => execLdVxK_of_none_pressed (firstPressed_eq_none.2 hnone)⟩⟩

/-- Settles O45: the setting cycle decays the value it wrote, and by O44 each cycle after it
lowers the timer by 1. -/
theorem timerCountsDownAcrossCycles : Obligations.TimerCountsDownAcrossCycles := by
  refine fun s t u op x j hop h => ⟨fun hset hrun => ?_, fun hset hrun => ?_⟩
  · rw [← toNat_DT_of_step_ldDtVx hop h hset]
    exact hrun.count_eq_sub (count := fun s => s.DT.toNat)
      fun s t op hop h => (timersDecayOncePerCycle s t op hop h).1
  · rw [← toNat_ST_of_step_ldStVx hop h hset]
    exact hrun.count_eq_sub (count := fun s => s.ST.toNat)
      fun s t op hop h => (timersDecayOncePerCycle s t op hop h).2

/-- Settles O41: each skip is on the bit of the key that `KeyIndex` names, and stops where it names
none. -/
theorem keySkipsTestOneKey : Obligations.KeySkipsTestOneKey := by
  refine ⟨fun _ htop => ⟨decode_eq_skp htop, decode_eq_sknp htop⟩, fun x s =>
    ⟨fun k hk => ?_, fun hge hmode => ?_⟩⟩
  · have hindex := keyIndex_eq_ok.2 hk
    exact ⟨(execSkp_of_keyIndex hindex).trans (congrArg _ (s.skipIf_eq_ite Iff.rfl)),
      (execSknp_of_keyIndex hindex).trans
        (congrArg _ (s.skipIf_eq_ite (Bool.not_eq_true' _).to_iff))⟩
  · have hstop := keyPressed_eq_error.2 ⟨hge, hmode, rfl⟩
    exact ⟨execSkp_eq_fault.2 hstop, execSknp_eq_fault.2 hstop⟩

/-- Settles O43: each transfer is one write, and the decay lowers both timers by 1 after it. -/
theorem timerTransfersBeforeDecay : Obligations.TimerTransfersBeforeDecay := by
  refine ⟨fun _ htop =>
    ⟨fun hkk => decode_eq_of_encode_eq rfl (encodeXK_fields htop hkk),
      fun hkk => decode_eq_of_encode_eq rfl (encodeXK_fields htop hkk),
      fun hkk => decode_eq_of_encode_eq rfl (encodeXK_fields htop hkk)⟩, fun x s =>
    ⟨rfl, rfl, rfl, ⟨_, rfl, ?_, toNat_decayTimer s.DT, toNat_decayTimer s.ST⟩,
      ⟨_, rfl, toNat_decayTimer (s.getV x), toNat_decayTimer s.ST⟩,
      _, rfl, toNat_decayTimer (s.getV x), toNat_decayTimer s.DT⟩⟩
  exact s.getV_setV_self x s.DT

end Sys2Proof.Machine
end

section
/-!
The statements of 60_exceptions.md. An instruction stops exactly where it is not defined, and no
arm refuses one, so it completes exactly where it is defined. A host's run is a list of moves, and
each move, whatever a cycle's outcome, keeps the invariant and the parameters.
-/

namespace Sys2Proof.Machine

/-! ## When an instruction completes (60_exceptions.md R220, R221) -/

section
variable {s : State} {x y n : Index16}

/-- An outcome with one possible reason to stop stops exactly under that reason's condition. -/
theorem exists_fault_iff {o : Host.Outcome State Fault Refusal} {P : Prop} {g : Fault}
    (h : ∀ f, o = .fault f ↔ P ∧ f = g) : (∃ f, o = .fault f) ↔ P := by
  simp [h]

theorem execRet_stops_iff :
    (∃ f, execRet s = .fault f) ↔ ¬ (1 ≤ s.SP.toNat ∧ s.SP.toNat ≤ 16) := by
  simp only [execRet_eq_fault, State.pop_eq_error, exists_or, exists_and_left, exists_eq, and_true]
  omega

theorem exists_keyPressed_eq_error_iff :
    (∃ f, keyPressed s (s.getV x) = .error f) ↔ ¬ s.KeyDefined x := by
  simp only [keyPressed_eq_error, exists_and_left, exists_eq, and_true, State.KeyDefined, not_or,
    not_lt]
  cases s.params.keyOob <;> simp

/-- Where some row of the sprite stops the draw, the first such row does (60_exceptions.md R222). -/
theorem exists_execDrw_eq_fault_of_rowStops {r : Nat} {f : Fault} (hr : r < n.val)
    (h : s.RowStops x y r f) : ∃ g, execDrw x y n s = .fault g := by
  classical
  have hex : ∃ k g, s.RowStops x y k g := ⟨r, f, h⟩
  obtain ⟨g, hg⟩ := Nat.find_spec hex
  exact ⟨g, execDrw_eq_fault_iff_rowStops.2 ⟨Nat.find hex,
    (Nat.find_min' hex ⟨f, h⟩).trans_lt hr, fun _ hj g' hg' => Nat.find_min hex hj ⟨g', hg'⟩, hg⟩⟩

theorem execDrw_stops_iff :
    (∃ f, execDrw x y n s = .fault f) ↔ ¬ s.Defined (.drw x y n) := by
  constructor
  · rintro ⟨f, hstop⟩ hdef
    obtain ⟨t, hnext⟩ := exists_execDrw_eq_next_of_defined hdef
    cases hnext.symm.trans hstop
  · intro hundef
    by_contra hgo
    have hrow : ∀ r, r < n.val → memCell s.params.memOob (s.I.toNat + r) ≠ none ∧
        ¬ (s.params.drawEdge = .undefined ∧ s.RowOffGrid x y r) := fun r hr =>
      State.not_rowStops_iff.1 fun _ hstops => hgo (exists_execDrw_eq_fault_of_rowStops hr hstops)
    exact hundef ⟨fun r hr => (hrow r hr).1, fun hedge r hr hoff => (hrow r hr).2 ⟨hedge, hoff⟩⟩

/-- An instruction stops exactly where it reaches an undefined case. -/
theorem exec_stops_iff {i : Instr} : (∃ f, exec i s = .fault f) ↔ ¬ s.Defined i := by
  cases i with
  | ret => exact execRet_stops_iff
  | call nnn => exact (exists_fault_iff fun _ => execCall_eq_fault).trans not_lt.symm
  | drw x y n => exact execDrw_stops_iff
  | skp x => exact (exists_congr fun _ => execSkp_eq_fault).trans exists_keyPressed_eq_error_iff
  | sknp x => exact (exists_congr fun _ => execSknp_eq_fault).trans exists_keyPressed_eq_error_iff
  | ldB x => exact exists_fault_iff fun _ => execLdB_eq_fault
  | dump x => exact exists_fault_iff fun _ => execDump_eq_fault
  | load x => exact exists_fault_iff fun _ => execLoad_eq_fault
  | ldVxK x => exact iff_of_false (fun ⟨_, h⟩ => execLdVxK_ne_fault h) (not_not_intro trivial)
  | _ => exact iff_of_false (fun ⟨_, h⟩ => nomatch h) (not_not_intro trivial)

theorem conclude_ne_refused (o : Result State) (r : Refusal) : conclude o ≠ .refused r := by
  cases o <;> simp [conclude]

/-- No arm of `exec` turns an instruction away (decision D19). -/
theorem exec_ne_refused (i : Instr) (s : State) (r : Refusal) : exec i s ≠ .refused r := by
  cases i with
  | ldB x | dump x => exact conclude_ne_refused _ r
  | ret | call _ | drw _ _ _ | load _ | skp _ | sknp _ | ldVxK _ =>
    simp only [exec, execRet, execCall, execDrw, execLoad, execSkp, execSknp, execLdVxK]
    split <;> simp
  | _ => exact fun h => nomatch h

end

/-! ## The launch (70_reset_and_hazards.md R253) -/

section
variable {params : Params} {font : Vector Byte 80} {image : List Byte} {key : Keypad} {s t : State}

theorem State.loadRom_eq_next :
    s.loadRom (some image) = .next t ↔ image.length ≤ Config.maxRom ∧
      t = { s with mem := Memory.writeList s.mem Config.programBase image } := by
  by_cases hlen : image.length ≤ Config.maxRom <;> simp [State.loadRom, hlen, eq_comm]

theorem launch_eq_next :
    launch params font image key = .next s ↔
      ∃ t, (State.construct params font).loadRom (some image) = .next t ∧ s = t.setKeys key := by
  unfold launch
  cases (State.construct params font).loadRom (some image) <;> simp [eq_comm]

theorem State.construct_inv (params : Params) (font : Vector Byte 80) :
    (State.construct params font).Inv := by
  have hfont : Config.fontBase + font.toList.length ≤ Config.memSize := by
    rw [Vector.length_toList]
    decide
  exact ⟨Memory.wf_writeList Memory.wf_reset hfont, (by decide : State.reset.SP.toNat ≤ 16)⟩

theorem State.loadRom_keeps_inv (hs : s.Inv) (h : s.loadRom (some image) = .next t) : t.Inv := by
  obtain ⟨hmem, hSP⟩ := hs
  obtain ⟨hlen, rfl⟩ := State.loadRom_eq_next.1 h
  have hend : Config.programBase + image.length ≤ Config.memSize :=
    Nat.add_le_add_left hlen Config.programBase
  exact ⟨Memory.wf_writeList hmem hend, hSP⟩

theorem launch_inv_and_params (h : launch params font image key = .next s) :
    s.Inv ∧ s.params = params := by
  obtain ⟨t, hload, rfl⟩ := launch_eq_next.1 h
  have hinv : t.Inv := State.loadRom_keeps_inv (State.construct_inv params font) hload
  obtain ⟨_, rfl⟩ := State.loadRom_eq_next.1 hload
  exact ⟨hinv, rfl⟩

end

/-! ## The host's moves (60_exceptions.md R236) -/

section
variable {s t : State}

/-- The cycle port completes a cycle or changes at most the mark (40_cycle.md R121, log 3). -/
theorem State.cycle_cases (s : State) :
    step s = .next s.cycle ∨ ∃ mark, s.cycle = { s with undef := mark } := by
  unfold State.cycle
  cases step s with
  | next t => exact .inl rfl
  | fault f => cases f <;> exact .inr ⟨_, rfl⟩
  | refused r => exact .inr ⟨_, rfl⟩

theorem step_params (h : step s = .next t) : t.params = s.params := by
  obtain ⟨_, op, _, hop, _⟩ := step_eq_next.1 h
  exact (cycleLeavesHostStateAlone s t op hop h).2.1

theorem State.cycle_keeps_inv (hs : s.Inv) : s.cycle.Inv := by
  rcases s.cycle_cases with h | ⟨mark, h⟩
  · exact everyCycleKeepsInvariant s _ hs h
  · rw [h]
    exact hs

theorem State.cycle_params (s : State) : s.cycle.params = s.params := by
  rcases s.cycle_cases with h | ⟨mark, h⟩
  · exact step_params h
  · rw [h]

theorem State.hostMove_keeps_inv (hs : s.Inv) (m : HostMove) : (s.hostMove m).Inv := by
  cases m with
  | cycle => exact State.cycle_keeps_inv hs
  | keys key => exact hs
  | random b => exact hs

theorem State.hostMove_params (s : State) (m : HostMove) : (s.hostMove m).params = s.params := by
  cases m with
  | cycle => exact s.cycle_params
  | keys key => rfl
  | random b => rfl

/-- What every move of the host keeps, every run of moves keeps. -/
theorem State.runHost_keeps {P : State → Prop} (hmove : ∀ s m, P s → P (s.hostMove m)) (hs : P s)
    (moves : List HostMove) : P (s.runHost moves) := by
  induction moves generalizing s with
  | nil => exact hs
  | cons m ms ih => exact ih (hmove s m hs)

end

/-! ## The obligations -/

/-- Settles O54: an outcome is a next state, a fault or a refusal; no instruction is refused, and
the faults are those of the undefined cases. -/
theorem instructionCompletesExactlyWhenDefined :
    Obligations.InstructionCompletesExactlyWhenDefined := by
  refine fun i s => ⟨?_, exec_ne_refused i s⟩
  rw [← not_iff_not, ← exec_stops_iff]
  cases h : exec i s with
  | next t => simp
  | fault f => simp
  | refused r => exact absurd h (exec_ne_refused i s r)

/-- Settles O10, by induction on the host's moves: a launch establishes the invariant and the
parameters, and each move keeps both, a cycle with an undefined outcome too since it changes only
the mark (log 3). -/
theorem hostRunsKeepInvariant : Obligations.HostRunsKeepInvariant := by
  intro params font image key moves s hlaunch
  refine State.runHost_keeps (P := fun t => t.Inv ∧ t.params = params) ?_
    (launch_inv_and_params hlaunch) moves
  rintro t m ⟨hinv, hparams⟩
  exact ⟨State.hostMove_keeps_inv hinv m, (t.hostMove_params m).trans hparams⟩

end Sys2Proof.Machine
end

section
/-!
The statements of 70_reset_and_hazards.md. Construction and the ROM load each write one list of
bytes, so what a launch leaves at an address is what the last list over it holds; a jump to itself
leaves the word that the next fetch finds, so each of its cycles is a decay of the timers.
-/

namespace Sys2Proof.Machine

/-! ## The bytes of a written list -/

section
variable {m : Memory} {a c j : Nat} {bs : List Byte}

theorem Memory.read_writeList_inside (h : m.wf = true) (ha : a + bs.length ≤ Config.memSize)
    (hj : j < bs.length) : (m.writeList a bs).read (a + j) = bs[j] := by
  rw [Memory.read_writeList h ha, if_pos (Nat.le_add_right a j), Nat.add_sub_cancel_left,
    List.getD_eq_getElem bs _ hj]

theorem Memory.read_writeList_outside (h : m.wf = true) (ha : a + bs.length ≤ Config.memSize)
    (hc : c < a ∨ a + bs.length ≤ c) : (m.writeList a bs).read c = m.read c := by
  rw [Memory.read_writeList h ha]
  split
  · exact List.getD_eq_default bs _ (by omega)
  · rfl

end

/-! ## Construction (70_reset_and_hazards.md R251) -/

/-- The font table is the 80 bytes from 0x050 on (20_memory.md R53 to R55). -/
theorem resetByte_eq_ite (a : Nat) :
    resetByte a =
      if 0x050 ≤ a ∧ a ≤ 0x09F then Config.font.getD (a - 0x050) 0x00#8 else 0x00#8 := by
  have hfont : Config.font.length = 80 := by decide
  unfold resetByte
  by_cases hbase : 0x050 ≤ a
  · rw [if_pos hbase]
    by_cases hend : a ≤ 0x09F
    · rw [if_pos ⟨hbase, hend⟩]
    · rw [if_neg fun h => hend h.2]
      have hpast : Config.font.length ≤ a - 0x050 := by omega
      exact List.getD_eq_default _ _ hpast
  · rw [if_neg hbase, if_neg fun h => hbase h.1]

theorem resetByte_outside_font {a : Nat} (h : a < 0x050 ∨ 0x0A0 ≤ a) : resetByte a = 0x00#8 := by
  rw [resetByte_eq_ite, if_neg (by omega)]

section
variable (params : Params) (font : Vector Byte 80)

theorem font_fits_memory : Config.fontBase + font.toList.length ≤ Config.memSize := by
  rw [Vector.length_toList]
  decide

theorem State.construct_read_font {j : Nat} (hj : j < 80) :
    (State.construct params font).mem.read (0x050 + j) = font[j] := by
  have hj' : j < font.toList.length := by rwa [Vector.length_toList]
  exact (Memory.read_writeList_inside Memory.wf_reset (font_fits_memory font) hj').trans
    (Vector.getElem_toList hj')

theorem State.construct_read_outside_font {a : Nat} (h : a < 0x050 ∨ 0x0A0 ≤ a) :
    (State.construct params font).mem.read a = 0x00#8 := by
  have houtside : a < Config.fontBase ∨ Config.fontBase + font.toList.length ≤ a := by
    rwa [Vector.length_toList]
  calc (State.construct params font).mem.read a
    _ = State.reset.mem.read a :=
      Memory.read_writeList_outside Memory.wf_reset (font_fits_memory font) houtside
    _ = 0x00#8 := resetByte_outside_font h

end

/-! ## A jump to itself (70_reset_and_hazards.md R264) -/

section
variable {s : State} {a : Addr12}

theorem exec_jumpToSelf (hpc : s.pc = zextAddr a) :
    exec (decode (0x1#4 ++ a)) s.advance = .next s := by
  have hdecode : decode (0x1#4 ++ a) = .jp a := decode_encode (i := .jp a) rfl
  have hback : s.advance.jumpTo (zextAddr a) = s := by
    rw [← hpc]
    rfl
  rw [hdecode]
  exact congrArg Host.Outcome.next hback

theorem step_jumpToSelf (hmark : s.undef = none) (hpc : s.pc = zextAddr a)
    (hop : fetch s = .ok (0x1#4 ++ a)) : step s = .next s.decay := by
  rw [step_of_fetch_ok hmark hop, exec_jumpToSelf hpc, decayAfter]

end

/-! ## The obligations -/

/-- Settles O57: the load is one list write, which ends at 0xFFF for the longest image. -/
theorem romLoadCopiesImage : Obligations.RomLoadCopiesImage := by
  refine fun s image => ⟨rfl, fun hm hlen => ?_, fun hlong => if_neg (not_le.2 hlong)⟩
  have hend : 0x200 + image.length ≤ Config.memSize := Nat.add_le_add_left hlen 0x200
  exact ⟨_, State.loadRom_eq_next.2 ⟨hlen, rfl⟩, rfl, Memory.wf_writeList hm hend,
    fun _ hj => Memory.read_writeList_inside hm hend hj,
    fun _ ha => Memory.read_writeList_outside hm hend ha⟩

/-- Settles O58: by O57 the image stands at 0x200, and every other address reads as construction
left it. -/
theorem launchBuildsInitialState : Obligations.LaunchBuildsInitialState := by
  intro params font image key hlen
  obtain ⟨t, hload, ht, -, himage, hrest⟩ :=
    (romLoadCopiesImage (State.construct params font) image).2.1
      (State.construct_inv params font).1 hlen
  have hlaunch : launch params font image key = .next (t.setKeys key) :=
    launch_eq_next.2 ⟨t, hload, rfl⟩
  refine ⟨_, hlaunch, congrArg (State.setKeys · key) ht, (launch_inv_and_params hlaunch).1,
    fun j hj => ?_, himage, fun a ha => ?_⟩
  · exact (hrest _ (by omega)).trans (State.construct_read_font params font hj)
  · exact (hrest a (by omega)).trans (State.construct_read_outside_font params font (by omega))

/-- Settles O7: memory lists nothing, so each address reads as its contents at construction. -/
theorem resetLeavesConstructedState : Obligations.ResetLeavesConstructedState := by
  refine ⟨fun r => Vector.getElem_replicate r.isLt, rfl, rfl, rfl,
    fun k => Vector.getElem_replicate k.isLt, rfl, rfl, fun a ha => ?_, Framebuffer.pixel_blank,
    fun k => Vector.getElem_replicate k.isLt, rfl, rfl⟩
  have hcell : memCell State.reset.params.memOob a = some a :=
    memCell_of_lt _ (Nat.lt_succ_of_le ha)
  rw [memRead_of_memCell hcell, ← resetByte_eq_ite]
  rfl

/-- Settles O8: no listed address, and an empty stack. -/
theorem resetMeetsInvariant : Obligations.ResetMeetsInvariant :=
  ⟨Memory.wf_reset, Nat.zero_le 16⟩

/-- Settles O46, by induction on the number of cycles: the decay keeps what the next fetch reads. -/
theorem jumpToSelfOnlyDecaysTimers : Obligations.JumpToSelfOnlyDecaysTimers := by
  intro s a k hmark hpc hop
  induction k generalizing s with
  | zero => exact ⟨s, rfl, rfl, rfl, rfl⟩
  | succ k ih =>
    obtain ⟨t, hrun, hDT, hST, hframe⟩ := ih s.decay hmark hpc hop
    refine ⟨t, (core_run_succ (step_jumpToSelf hmark hpc hop)).trans hrun, ?_, ?_, hframe⟩
    · rw [hDT, State.decay_DT, toNat_decayTimer, Nat.sub_sub, Nat.add_comm]
    · rw [hST, State.decay_ST, toNat_decayTimer, Nat.sub_sub, Nat.add_comm]

end Sys2Proof.Machine
end
